-- ==== Sys2Proof/Word.lean ====
section
/-! DEFINITION. The fixed-width words of the LENC block (spec/00_scope.md R7): every register value is an
unsigned integer of the register's width. The widths that are parameters of the block stand in Config.lean. -/

namespace Sys2Proof

/-- One bit: an input bit, an output level, the latch `LEVEL`. Level 1 is high, level 0 is low (R29). -/
abbrev Bit := BitVec 1

/-- A command word of format `C`: 2 bits, one field `op = word[1:0]` (R60). -/
abbrev CmdWord := BitVec 2

/-- The cause mask of an InvalidInput (R141). -/
abbrev CauseMask := BitVec 4

end Sys2Proof
end

