-- ==== Sys2Proof/Config.lean ====
section
/-! DEFINITION. What an implementation of the block fixes (spec/00_scope.md R6), with the constraints R6 puts on
it, and the free values: constants with no body that stand for what the spec leaves unspecified. `HOSTBUS` is
not modelled (R6, R64; log 2). -/

namespace Sys2Proof

/-- The parameters of R6. A value carries the proofs of R6's constraints, so an illegal block cannot be built. -/
structure Config where
  /-- `AW`: bits of a sequence index and of `LEN`; `SEQ` has `2^AW` cells. -/
  aw : Nat
  /-- `SW`: bits of `SPB` and of `J`. -/
  sw : Nat
  /-- `TW`: bits of `BITDUR`. -/
  tw : Nat
  /-- `SYMW`: bits of one cell of `SEQ`. -/
  symw : Nat
  /-- `TICK`: the seconds that one unit of `BITDUR` stands for. -/
  tick : ℚ
  aw_pos : 1 ≤ aw
  sw_ge : 7 ≤ sw
  tw_pos : 1 ≤ tw
  symw_pos : 1 ≤ symw
  tick_pos : 0 < tick
  deriving DecidableEq, Repr

/-- `KW = AW + SW`, the bits of `K` (R6). -/
abbrev Config.kw (c : Config) : Nat := c.aw + c.sw

/-- The defaults of R6. -/
def Config.default : Config where
  aw := 8
  sw := 16
  tw := 16
  symw := 2
  tick := 1
  aw_pos := by decide
  sw_ge := by decide
  tw_pos := by decide
  symw_pos := by decide
  tick_pos := by norm_num

/-- `SPB_RESET`, fixed at 100 (R6, R11). -/
def Config.spbReset : Nat := 100

/-- FREE VALUE (R52, D23, U4; log 4): the `w`-bit content of cell `idx` that no write has reached since the reset
that drew number `draw`. No body: nothing can be proved about the value. -/
opaque Config.unwrittenCell (w draw idx : Nat) : BitVec w

/-- FREE VALUE (R29, U5; log 5): `OUT_K` while `OUT_VALID = 0`. -/
opaque Config.idleOutK (w draw : Nat) : BitVec w

/-- FREE VALUE (R29, U5; log 5): `OUT_LEVEL` while `OUT_VALID = 0`. -/
opaque Config.idleOutLevel (draw : Nat) : Bit

end Sys2Proof
end

