-- ==== Sys2Proof/Syntax.lean ====
section
/-! DEFINITION. The four operations of the block (spec/30_encoding.md R61), one constructor per row of
spec/opcode_table.json. A command word carries no register field and no immediate (R62), so no constructor
has an argument. -/

namespace Sys2Proof

/-- The operations a start command selects, in the order of R61. -/
inductive Instr where
  /-- `GEN`, the generator used on its own (R85). -/
  | gen
  /-- `NRZL`, the bit replicator (R100). -/
  | nrzl
  /-- `NRZI`, the level latch toggled by a 1 bit (R113). -/
  | nrzi
  /-- `MAN`, the mid-bit splitter (R127). -/
  | man
  deriving DecidableEq, Repr

end Sys2Proof
end

