-- ==== Sys2Proof/WellFormed.lean ====
section
/-! DEFINITION. The checks on what is written down from outside: an instruction (spec/30_encoding.md R62, R63), a
set of parameters (spec/00_scope.md R6). The check on a host script stands beside its type, in
Machine/Script.lean. -/

namespace Sys2Proof

/-- Every operation is well formed: none has an operand (R62) and every command word is legal (R63). -/
def Instr.wellFormed : Instr → Bool
  | .gen => true
  | .nrzl => true
  | .nrzi => true
  | .man => true

/-- The block with the given parameters; `none` where they break a constraint of R6. -/
def Config.ofParams (aw sw tw symw : Nat) (tick : ℚ) : Option Config :=
  if h : 1 ≤ aw ∧ 7 ≤ sw ∧ 1 ≤ tw ∧ 1 ≤ symw ∧ 0 < tick then
    some ⟨aw, sw, tw, symw, tick, h.1, h.2.1, h.2.2.1, h.2.2.2.1, h.2.2.2.2⟩
  else none

end Sys2Proof
end

