-- ==== Sys2Proof/Decode.lean ====
section
/-! DEFINITION. Command words (spec/30_encoding.md R60 to R63, spec/opcode_table.json): the decoder, which is total
on 2-bit words (R63), and the encoder, from the same table. -/

namespace Sys2Proof

/-- Why bits are no command word. -/
inductive DecodeError where
  /-- A number above 3: a command word has 2 bits and no other length exists (R60); wider data is not expressible
  (D30; log 12). Safe. -/
  | widerThanCommandWord
  deriving DecidableEq, Repr

/-- The operation a command word selects, by R61's table. Total: all four codes are assigned (R63). -/
def decode (w : CmdWord) : Instr :=
  if w = 0b00#2 then .gen
  else if w = 0b01#2 then .nrzl
  else if w = 0b10#2 then .nrzi
  else .man

/-- The command word of an operation, by R61's table. -/
def encode : Instr → CmdWord
  | .gen => 0b00#2
  | .nrzl => 0b01#2
  | .nrzi => 0b10#2
  | .man => 0b11#2

/-- The command word whose bits are the low `nbits` bits of `w` (the bits above are 0), refused by name where it
has a bit above bit 1 (R60). -/
def commandWord (nbits w : Nat) : Except DecodeError CmdWord :=
  if w % 2 ^ nbits < 4 then .ok (BitVec.ofNat 2 (w % 2 ^ nbits)) else .error .widerThanCommandWord

/-- The decoder on a row of spec/opcode_table.json, whose 2 bits stand in a whole byte. -/
def decodeTableWord (nbits w : Nat) : Option Instr :=
  match commandWord nbits w with
  | .ok v => some (decode v)
  | .error _ => none

end Sys2Proof
end

