-- ==== Sys2Proof/Machine/Transaction.lean ====
section
/-! DEFINITION. What the host can do to the block and what it sees: the host-visible register numbers
(spec/10_state.md R24), the four transactions (spec/30_encoding.md R64), reset (spec/70_reset_and_hazards.md R170)
and `WAIT` (R67) as moves, the sample events (R29) and the data of a read. -/

namespace Sys2Proof.Machine

/-- The eight host-visible register numbers (R24). -/
inductive RegNum where
  | cmd
  | status
  | spb
  | bitdur
  | len
  | count
  | reserved6
  | reserved7
  deriving DecidableEq, Repr

/-- The 3-bit number of a register (R24). -/
def RegNum.number : RegNum → BitVec 3
  | .cmd => 0#3
  | .status => 1#3
  | .spb => 2#3
  | .bitdur => 3#3
  | .len => 4#3
  | .count => 5#3
  | .reserved6 => 6#3
  | .reserved7 => 7#3

/-- The register of a 3-bit number: the map is complete (R24). -/
def RegNum.ofNumber (n : BitVec 3) : RegNum :=
  if n = 0#3 then .cmd
  else if n = 1#3 then .status
  else if n = 2#3 then .spb
  else if n = 3#3 then .bitdur
  else if n = 4#3 then .len
  else if n = 5#3 then .count
  else if n = 6#3 then .reserved6
  else .reserved7

/-- The width of a register (R24's column "width"); the reserved numbers have none (log 11). -/
abbrev RegNum.width (c : Config) : RegNum → Nat
  | .cmd => 2
  | .status => 8
  | .spb => c.sw
  | .bitdur => c.tw
  | .len => c.aw
  | .count => c.kw
  | .reserved6 => 0
  | .reserved7 => 0

/-- One move in the total order of host transactions and sequencer steps (R49). -/
inductive HostMove (c : Config) where
  /-- `RegWrite(rn, data)`: the data have exactly the register's width (R64, D30). -/
  | regWrite (rn : RegNum) (data : BitVec (rn.width c))
  /-- `RegRead(rn)` (R26). -/
  | regRead (rn : RegNum)
  /-- `SeqWrite(idx, sym)` (R44). -/
  | seqWrite (idx : BitVec c.aw) (sym : BitVec c.symw)
  /-- `SeqRead(idx)` (R45). -/
  | seqRead (idx : BitVec c.aw)
  /-- The reset input (R170). -/
  | reset
  /-- `WAIT`: the sequencer steps until `PHASE` is not `RUN`; no transaction (R67). -/
  | wait
  /-- No transaction: one turn of the sequencer (R49; the model's name, log 2). -/
  | skip
  deriving DecidableEq, Repr

/-- A sample event `(k, l)` (R29). -/
structure Event (c : Config) where
  k : BitVec c.kw
  level : Bit
  deriving DecidableEq, Repr

/-- The data a host read returned, with their width (R26, R45). -/
structure Reply where
  width : Nat
  data : BitVec width
  deriving DecidableEq, Repr

end Sys2Proof.Machine
end

