-- ==== Sys2Proof/Machine/State.lean ====
section
/-! DEFINITION. The state of the block (spec/10_state.md R10 to R21, R29), the reasons a step could stop, and the
state after reset (R36). -/

namespace Sys2Proof.Machine

/-- `PHASE`, a 2-bit register with four values (R16). -/
inductive Phase where
  /-- No run since reset. -/
  | idle
  /-- A run is emitting samples. -/
  | run
  /-- The last run emitted all its samples. -/
  | done
  /-- The last start command was rejected with InvalidInput. -/
  | err
  deriving DecidableEq, Repr

/-- The memory `SEQ`: the cells written since the last reset, as (index, content) pairs with strictly rising
indices. A cell holds `SYMW` bits, not a byte (R14, R40; log 3). -/
abbrev Memory (w : Nat) := List (Nat × BitVec w)

/-- The reasons a step could fault. THERE ARE NONE: a sample step cannot fault, no index falls outside `SEQ`, and an
invalid input is the phase `ERR`, not a stop (R144, R151). -/
inductive Fault where
  deriving DecidableEq, Repr

/-- The reasons a step could be refused. -/
inductive Refusal where
  /-- Raised by an arm of `exec` whose instruction has no meaning yet; no arm raises it. Safe: nothing can be proved
  of a refused instruction. -/
  | notModelled (mnemonic : String)
  deriving DecidableEq, Repr

/-- The state, between two steps, of a block with the parameters `c`. The fields from `spb` to `level` are the
architectural state of R10; `out` and `reply` are what the last step showed outside; `inbox`, `draws` and `seqDraw`
are the model's own. -/
structure Block (c : Config) where
  /-- `SPB`, samples per bit, register 2 (R11). -/
  spb : BitVec c.sw
  /-- `BITDUR`, bit duration in units of `TICK`, register 3 (R12). -/
  bitdur : BitVec c.tw
  /-- `LEN`, sequence length, register 4 (R13). -/
  len : BitVec c.aw
  /-- `SEQ`, the sequence buffer (R14). -/
  seq : Memory c.symw
  /-- `OP`, the code of the current or last run (R15). -/
  op : CmdWord
  /-- `PHASE` (R16). -/
  phase : Phase
  /-- `ERRCAUSE`, the cause mask of the last start step (R17). -/
  errcause : CauseMask
  /-- `I`, the bit index (R18). -/
  i : BitVec c.aw
  /-- `J`, the phase counter (R19). -/
  j : BitVec c.sw
  /-- `K`, the sample counter (R20). -/
  k : BitVec c.kw
  /-- `LEVEL`, the NRZ-I latch (R21). -/
  level : Bit
  /-- The event the last step emitted: `none` where `OUT_VALID` was 0 (R29; log 5). -/
  out : Option (Event c)
  /-- The data that a host read returned in the last step (R26, R45; log 6). -/
  reply : Option Reply
  /-- The host's coming moves, in order (R49; log 2). -/
  inbox : List (HostMove c)
  /-- The counter that free values are drawn with (log 4, log 5). -/
  draws : Nat
  /-- The draw of the never-written cells, set by reset (R52; log 4). -/
  seqDraw : Nat
  deriving DecidableEq, Repr

/-- The machine: the parameters of R6, which no step changes (R28; log 1), and the state of the block. -/
structure State where
  cfg : Config
  block : Block cfg
  deriving DecidableEq, Repr

/-- The state reset leaves (R36, R170): every register at R36's value, no cell written, the never-written cells
drawn anew. The host's coming moves and the draw counter are not the block's and stay. -/
def Block.powerOn (c : Config) (draws : Nat) (inbox : List (HostMove c)) : Block c where
  spb := BitVec.ofNat c.sw Config.spbReset
  bitdur := BitVec.ofNat c.tw 1
  len := BitVec.ofNat c.aw 0
  seq := []
  op := 0b00#2
  phase := .idle
  errcause := 0b0000#4
  i := BitVec.ofNat c.aw 0
  j := BitVec.ofNat c.sw 0
  k := BitVec.ofNat c.kw 0
  level := 0#1
  out := none
  reply := none
  inbox := inbox
  draws := draws
  seqDraw := draws

/-- The machine right after reset, with R6's default parameters and no host move waiting. -/
def State.reset : State := ⟨Config.default, Block.powerOn Config.default 0 []⟩

end Sys2Proof.Machine
end

