-- ==== Sys2Proof/Machine/Ops.lean ====
section
/-! DEFINITION. The named operations over memory, registers and ports, and InvalidInput, the block's one exception.
There is no return from it: the next start step or reset leaves `ERR` (spec/60_exceptions.md R147). -/

namespace Sys2Proof.Machine

/-! ### The sequence buffer (spec/20_memory.md R40 to R46) -/

/-- The content written last to cell `n` since reset; `none` for a cell never written (R43, R52). -/
def Memory.lookup {w : Nat} : Memory w → Nat → Option (BitVec w)
  | [], _ => none
  | (a, v) :: m, n => if a = n then some v else Memory.lookup m n

/-- Replaces the content of cell `n`, keeping the indices strictly rising (R43). -/
def Memory.insert {w : Nat} : Memory w → Nat → BitVec w → Memory w
  | [], n, v => [(n, v)]
  | (a, u) :: m, n, v =>
    if n < a then (n, v) :: (a, u) :: m
    else if n = a then (n, v) :: m
    else (a, u) :: Memory.insert m n v

/-- The indices rise strictly, from `lo` on. -/
def Memory.risingFrom {w : Nat} : Nat → Memory w → Bool
  | _, [] => true
  | lo, (a, _) :: m => decide (lo ≤ a) && Memory.risingFrom (a + 1) m

/-- The canonical form of `SEQ`: strictly rising indices, all below `2^AW` (R40). -/
def Memory.wf {w : Nat} (aw : Nat) (m : Memory w) : Bool :=
  Memory.risingFrom 0 m && m.all (fun e => decide (e.1 < 2 ^ aw))

/-- The content of cell `n`: what was written last, or the free value of a never-written cell (R43, R52). -/
def cellAt {c : Config} (s : Block c) (n : Nat) : BitVec c.symw :=
  (Memory.lookup s.seq n).getD (Config.unwrittenCell c.symw s.seqDraw n)

/-- `MemRead(i, 1)` (R8, R43). -/
def memRead {c : Config} (s : Block c) (idx : BitVec c.aw) : BitVec c.symw :=
  cellAt s idx.toNat

/-- `MemWrite(i, 1, v)` (R8, R43). -/
def memWrite {c : Config} (s : Block c) (idx : BitVec c.aw) (sym : BitVec c.symw) : Block c :=
  { s with seq := Memory.insert s.seq idx.toNat sym }

/-! ### Position, output, phase -/

/-- `pos <- (i, j, k)` (R8). -/
def setPos {c : Config} (s : Block c) (i : BitVec c.aw) (j : BitVec c.sw) (k : BitVec c.kw) : Block c :=
  { s with i := i, j := j, k := k }

/-- `emit(k, l)`: the one event of a sample step (R8, R29). -/
def emit {c : Config} (s : Block c) (k : BitVec c.kw) (l : Bit) : Block c :=
  { s with out := some ⟨k, l⟩ }

/-- The port `OUT_VALID` in the last step (R29). -/
def outValid {c : Config} (s : Block c) : Bool := s.out.isSome

/-- The port `OUT_K` in the last step; a free value while `OUT_VALID = 0` (R29, U5). -/
def outK {c : Config} (s : Block c) : BitVec c.kw :=
  (s.out.map fun e => e.k).getD (Config.idleOutK c.kw s.draws)

/-- The port `OUT_LEVEL` in the last step; a free value while `OUT_VALID = 0` (R29, U5). -/
def outLevel {c : Config} (s : Block c) : Bit :=
  (s.out.map fun e => e.level).getD (Config.idleOutLevel s.draws)

/-- TAKING THE EXCEPTION: `raise InvalidInput(c)` ends the start step in phase `ERR` with cause mask `c` (R8, R144).
Nothing is saved, no vector is read and control goes nowhere (R144). -/
def raiseInvalidInput {c : Config} (s : Block c) (cause : CauseMask) : Block c :=
  { s with errcause := cause, phase := .err }

/-- The start step found the input valid: `ERRCAUSE` is 0 and the run begins (R80). -/
def acceptInput {c : Config} (s : Block c) : Block c :=
  { s with errcause := 0b0000#4, phase := .run }

/-! ### Steps of the model -/

/-- What every step does first: the host's coming moves become `rest`, the ports of the step before are gone
(`OUT_VALID = 0` between steps, R29), no read data stands, and the next draw is fresh (log 4, log 5). -/
def advance {c : Config} (s : Block c) (rest : List (HostMove c)) : Block c :=
  { s with inbox := rest, out := none, reply := none, draws := s.draws + 1 }

/-- Shows the data of a host read (R26, R45). -/
def answer {c : Config} (s : Block c) (r : Reply) : Block c :=
  { s with reply := some r }

/-- `WAIT` stays the host's next move while the run goes on (R67). -/
def keepWaiting {c : Config} (s : Block c) : Block c :=
  { s with inbox := .wait :: s.inbox }

/-- Reset (R170): in any phase, every register at its reset value, every cell unspecified again. -/
def resetBlock {c : Config} (s : Block c) : Block c :=
  Block.powerOn c s.draws s.inbox

end Sys2Proof.Machine
end

