-- ==== Sys2Proof/Machine/Operands.lean ====
section
/-! DEFINITION. The implicit operands of the four operations (spec/30_encoding.md R62), the values computed from them
at every step (spec/10_state.md R28), and the host-visible registers by number (R24). -/

namespace Sys2Proof.Machine

/-- Bit `n` of the sequence: bit 0 of cell `n` (R43). -/
def seqBitAt {c : Config} (s : Block c) (n : Nat) : Bit :=
  (cellAt s n).extractLsb' 0 1

/-- `SeqBit(i)` (R8, R43). -/
def seqBit {c : Config} (s : Block c) (idx : BitVec c.aw) : Bit :=
  seqBitAt s idx.toNat

/-- The input bit of the current block, `b = SeqBit(I)` (R28, R81). -/
def inputBit {c : Config} (s : Block c) : Bit :=
  seqBit s s.i

/-- The complement `1 - b` of one bit (R81). -/
def oneMinus (b : Bit) : Bit :=
  1#1 - b

/-- `MID = SPB >> 1` (R28, R125): shifted right by one, that is, the floor of the half (R7). -/
def midPhase {w : Nat} (spb : BitVec w) : BitVec w :=
  spb >>> 1

/-- `HALF`: 1 in the second half of a bit block, `j >= MID` (R28, R131). -/
def half {w : Nat} (j spb : BitVec w) : Bit :=
  if midPhase spb ≤ j then 1#1 else 0#1

/-- `J = SPB - 1`: the sample step at this position ends a bit block (R81, R82). -/
def atBlockEnd {c : Config} (s : Block c) : Bool :=
  decide (s.j = s.spb - BitVec.ofNat c.sw 1)

/-- `I = LEN - 1`: the current bit is the last of the sequence (R81). -/
def atLastBit {c : Config} (s : Block c) : Bool :=
  decide (s.i = s.len - BitVec.ofNat c.aw 1)

end Sys2Proof.Machine
end

