-- ==== Sys2Proof/Machine/Flags.lean ====
section
/-! DEFINITION. The block's flags: the cause mask of the start step (spec/60_exceptions.md R141, R142), the codes of
`PHASE` (spec/10_state.md R16), `STATUS` (R22), `COUNT` (R23), and the read values of the register map (R24). -/

namespace Sys2Proof.Machine

/-- There is an `m < n` with `MemRead(m, 1) >= 2` (R141). -/
def anyNonBinary {c : Config} (s : Block c) : Nat → Bool
  | 0 => false
  | n + 1 => anyNonBinary s n || decide (2 ≤ (cellAt s n).toNat)

/-- `E_EMPTY`, bit 0: `LEN = 0` (R141). -/
def causeEmpty {c : Config} (s : Block c) : Bool := decide (s.len = BitVec.ofNat c.aw 0)

/-- `E_SYMBOL`, bit 1: a cell below `LEN` is not binary (R141). -/
def causeSymbol {c : Config} (s : Block c) : Bool := anyNonBinary s s.len.toNat

/-- `E_BITDUR`, bit 2: `BITDUR = 0` (R141). -/
def causeBitdur {c : Config} (s : Block c) : Bool := decide (s.bitdur = BitVec.ofNat c.tw 0)

/-- `E_SPB`, bit 3: `SPB = 0` (R141). -/
def causeSpb {c : Config} (s : Block c) : Bool := decide (s.spb = BitVec.ofNat c.sw 0)

/-- `Validate()` (R142): every condition sets its own bit (R146). -/
def validate {c : Config} (s : Block c) : CauseMask :=
  BitVec.ofBool (causeSpb s) ++ BitVec.ofBool (causeBitdur s) ++
    BitVec.ofBool (causeSymbol s) ++ BitVec.ofBool (causeEmpty s)

/-- The code of a phase (R16). -/
def Phase.bits : Phase → BitVec 2
  | .idle => 0b00#2
  | .run => 0b01#2
  | .done => 0b10#2
  | .err => 0b11#2

/-- `STATUS`: `PHASE` in bits 1:0, `OP` in bits 3:2, `ERRCAUSE` in bits 7:4 (R22). -/
def status {c : Config} (s : Block c) : BitVec 8 :=
  s.errcause ++ s.op ++ s.phase.bits

/-- What a host read of register `rn` returns (R24, R27). -/
def regValue {c : Config} (s : Block c) (rn : RegNum) : BitVec (rn.width c) :=
  match rn with
  | .cmd => s.op
  | .status => status s
  | .spb => s.spb
  | .bitdur => s.bitdur
  | .len => s.len
  | .count => s.k
  | .reserved6 => 0#0
  | .reserved7 => 0#0

/-- `x[n]`: the read value of the register with 3-bit number `n` (R8, R24). -/
def regValueAt {c : Config} (s : Block c) (n : BitVec 3) : Reply :=
  ⟨(RegNum.ofNumber n).width c, regValue s (RegNum.ofNumber n)⟩

end Sys2Proof.Machine
end

