-- ==== Sys2Proof/Machine/Run.lean ====
section
/-! DEFINITION. What the four operations share (spec/40_timebase_gen.md): the start step (R80), the skeleton of the
sample step (R81), the advance of the position. The families differ only in the latch and the level they hand
to `sampleWith`. -/

namespace Sys2Proof.Machine

/-- The first three writes of the start step: `OP <- w`, `pos <- (0, 0, 0)`, `LEVEL <- 0` (R80). -/
def beginRun {c : Config} (s : Block c) (w : CmdWord) : Block c :=
  { setPos s (BitVec.ofNat c.aw 0) (BitVec.ofNat c.sw 0) (BitVec.ofNat c.kw 0) with
    op := w
    level := 0#1 }

/-- `StartStep(w)` (R80): one atomic step; `ERR` with the cause mask where validation fails, else `RUN`. -/
def startStep {c : Config} (s : Block c) (w : CmdWord) : Block c :=
  let s₁ := beginRun s w
  let cause := validate s₁
  if cause = 0b0000#4 then acceptInput s₁ else raiseInvalidInput s₁ cause

/-- A start command (R65): the start step outside `RUN`; ignored, not queued, during a run. -/
def issueCommand {c : Config} (s : Block c) (w : CmdWord) : Block c :=
  if s.phase = .run then s else startStep s w

/-- The end of the sample step (R81): the next position, and `DONE` with the last sample of the run. -/
def advancePos {c : Config} (s : Block c) : Block c :=
  if atBlockEnd s then
    if atLastBit s then
      setPos { s with phase := .done }
        (s.i + BitVec.ofNat c.aw 1) (BitVec.ofNat c.sw 0) (s.k + BitVec.ofNat c.kw 1)
    else
      setPos s (s.i + BitVec.ofNat c.aw 1) (BitVec.ofNat c.sw 0) (s.k + BitVec.ofNat c.kw 1)
  else
    setPos s s.i (s.j + BitVec.ofNat c.sw 1) (s.k + BitVec.ofNat c.kw 1)

/-- The sample step (R81) of a run whose latch becomes `latch` and whose event carries the level `l`. -/
def sampleWith {c : Config} (s : Block c) (latch l : Bit) : Block c :=
  advancePos (emit { s with level := latch } s.k l)

end Sys2Proof.Machine
end

