-- ==== Sys2Proof/Machine/Gen.lean ====
section
/-! DEFINITION. `GEN`, the time-axis and oversampling generator used on its own (spec/40_timebase_gen.md R85). -/

namespace Sys2Proof.Machine

/-- `Lvl(GEN, b, j, S, lev) = b` (R81). -/
def levelGen (b : Bit) : Bit := b

/-- The sample step of a `GEN` run: each bit value is replicated `SPB` times; `LEVEL` is not touched (R85). -/
def sampleGen {c : Config} (s : Block c) : Block c :=
  sampleWith s s.level (levelGen (inputBit s))

/-- `GEN`: `StartStep(0b00)`; the run's sample steps are `sampleGen` (R85). -/
def execGen (s : State) : Host.Outcome State Fault Refusal :=
  .next { s with block := issueCommand s.block 0b00#2 }

end Sys2Proof.Machine
end

