-- ==== Sys2Proof/Machine/Man.lean ====
section
/-! DEFINITION. `MAN`, the Manchester encoder: each block is the bit up to its midpoint and the complement after it
(spec/43_manchester.md R125 to R127; the midpoint is the floor, the second half is the longer one, C2, C3). -/

namespace Sys2Proof.Machine

/-- `Lvl(MAN, b, j, S, lev)`: `b` if `j < (S >> 1)`, else `1 - b` (R81, R127). -/
def levelMan {w : Nat} (b : Bit) (j spb : BitVec w) : Bit :=
  if j < midPhase spb then b else oneMinus b

/-- The sample step of a `MAN` run; `LEVEL` is neither read nor written (R127, R130). -/
def sampleMan {c : Config} (s : Block c) : Block c :=
  sampleWith s s.level (levelMan (inputBit s) s.j s.spb)

/-- `MAN`: `StartStep(0b11)`; the run's sample steps are `sampleMan` (R127). -/
def execMan (s : State) : Host.Outcome State Fault Refusal :=
  .next { s with block := issueCommand s.block 0b11#2 }

end Sys2Proof.Machine
end

