-- ==== Sys2Proof/Machine/Nrzi.lean ====
section
/-! DEFINITION. `NRZI`, the NRZ-I encoder: a level latch toggled by exclusive-or with the input bit at each bit
boundary (spec/42_nrzi.md R110 to R113). -/

namespace Sys2Proof.Machine

/-- `LEVEL xor b` at the first sample of a block, else `LEVEL` unchanged (R111). -/
def latchNrzi {c : Config} (s : Block c) : Bit :=
  if s.j = BitVec.ofNat c.sw 0 then s.level ^^^ inputBit s else s.level

/-- `Lvl(NRZI, b, j, S, lev) = lev` (R81, R112). -/
def levelNrzi (lev : Bit) : Bit := lev

/-- The sample step of an `NRZI` run: the latch is written first, and the event carries the latch just written
(R111, R112). -/
def sampleNrzi {c : Config} (s : Block c) : Block c :=
  sampleWith s (latchNrzi s) (levelNrzi (latchNrzi s))

/-- `NRZI`: `StartStep(0b10)`; the run's sample steps are `sampleNrzi` (R113). -/
def execNrzi (s : State) : Host.Outcome State Fault Refusal :=
  .next { s with block := issueCommand s.block 0b10#2 }

end Sys2Proof.Machine
end

