-- ==== Sys2Proof/Machine/Nrzl.lean ====
section
/-! DEFINITION. `NRZL`, the NRZ-L encoder, a bit replicator (spec/41_nrzl.md R100). -/

namespace Sys2Proof.Machine

/-- `Lvl(NRZL, b, j, S, lev) = b` (R81, R100). -/
def levelNrzl (b : Bit) : Bit := b

/-- The sample step of an `NRZL` run: the level is the bit; `LEVEL` is neither read nor written (R100). -/
def sampleNrzl {c : Config} (s : Block c) : Block c :=
  sampleWith s s.level (levelNrzl (inputBit s))

/-- `NRZL`: `StartStep(0b01)`; the run's sample steps are `sampleNrzl` (R100). -/
def execNrzl (s : State) : Host.Outcome State Fault Refusal :=
  .next { s with block := issueCommand s.block 0b01#2 }

end Sys2Proof.Machine
end

