-- ==== Sys2Proof/Machine/Dispatch.lean ====
section
/-! DEFINITION. One arm per operation of spec/opcode_table.json: the effect of its start command. -/

namespace Sys2Proof.Machine

def exec (i : Instr) (s : State) : Host.Outcome State Fault Refusal :=
  match i with
  | .gen => Sys2Proof.Machine.execGen s
  | .nrzl => Sys2Proof.Machine.execNrzl s
  | .nrzi => Sys2Proof.Machine.execNrzi s
  | .man => Sys2Proof.Machine.execMan s

end Sys2Proof.Machine
end

