-- ==== Sys2Proof/Machine/Turn.lean ====
section
/-! DEFINITION. One turn in the total order of spec/20_memory.md R49: a turn of the sequencer (its sample step, where
a run is on), or one move of the host. A host write to `CMD` is the command fetch: its data are decoded and the
operation is `exec`uted (spec/30_encoding.md R65). -/

namespace Sys2Proof.Machine

/-- `SampleStep` (R81), by the operation of the run. -/
def sampleStep {c : Config} (s : Block c) : Block c :=
  match decode s.op with
  | .gen => sampleGen s
  | .nrzl => sampleNrzl s
  | .nrzi => sampleNrzi s
  | .man => sampleMan s

/-- A turn of the sequencer: its sample step in `RUN`; in every other phase it has no enabled step and all state is
kept (R82, R156; log 10). -/
def sequencerTurn {c : Config} (s : Block c) : Block c :=
  if s.phase = .run then sampleStep s else s

/-- A host write to a register other than `CMD`, outside `RUN` (R24, R25): the whole register; read-only and reserved
numbers take nothing. -/
def writeRegister {c : Config} (s : Block c) (rn : RegNum) (data : BitVec (rn.width c)) : Block c :=
  match rn, data with
  | .cmd, _ => s
  | .status, _ => s
  | .spb, v => { s with spb := v }
  | .bitdur, v => { s with bitdur := v }
  | .len, v => { s with len := v }
  | .count, _ => s
  | .reserved6, _ => s
  | .reserved7, _ => s

/-- A host write to a register other than `CMD` (R25): nothing in `RUN`. -/
def hostWrite {c : Config} (s : Block c) (rn : RegNum) (data : BitVec (rn.width c)) : Block c :=
  if s.phase = .run then s else writeRegister s rn data

/-- `RegWrite(rn, data)` (R64): to `CMD` it is the start command of the decoded word (R65). -/
def hostRegWrite {c : Config} (s : Block c) (rn : RegNum) (data : BitVec (rn.width c)) :
    Host.Outcome State Fault Refusal :=
  match rn, data with
  | .cmd, w => exec (decode w) ⟨c, s⟩
  | .status, v => .next ⟨c, hostWrite s .status v⟩
  | .spb, v => .next ⟨c, hostWrite s .spb v⟩
  | .bitdur, v => .next ⟨c, hostWrite s .bitdur v⟩
  | .len, v => .next ⟨c, hostWrite s .len v⟩
  | .count, v => .next ⟨c, hostWrite s .count v⟩
  | .reserved6, v => .next ⟨c, hostWrite s .reserved6 v⟩
  | .reserved7, v => .next ⟨c, hostWrite s .reserved7 v⟩

/-- `RegRead(rn)` (R26): the read value, no side effect. -/
def hostRegRead {c : Config} (s : Block c) (rn : RegNum) : Block c :=
  answer s ⟨rn.width c, regValue s rn⟩

/-- `SeqWrite(idx, sym)` (R44): the cell outside `RUN`, nothing in `RUN`. -/
def hostSeqWrite {c : Config} (s : Block c) (idx : BitVec c.aw) (sym : BitVec c.symw) : Block c :=
  if s.phase = .run then s else memWrite s idx sym

/-- `SeqRead(idx)` (R45): the cell, no side effect. -/
def hostSeqRead {c : Config} (s : Block c) (idx : BitVec c.aw) : Block c :=
  answer s ⟨c.symw, memRead s idx⟩

/-- `WAIT` (R67): a turn of the sequencer in `RUN`, and the host goes on waiting; nothing in any other phase. -/
def hostWait {c : Config} (s : Block c) : Block c :=
  if s.phase = .run then sampleStep (keepWaiting s) else s

/-- One move of the host (R64, R67, R170). -/
def takeMove {c : Config} (s : Block c) (m : HostMove c) : Host.Outcome State Fault Refusal :=
  match m with
  | .regWrite rn data => hostRegWrite s rn data
  | .regRead rn => .next ⟨c, hostRegRead s rn⟩
  | .seqWrite idx sym => .next ⟨c, hostSeqWrite s idx sym⟩
  | .seqRead idx => .next ⟨c, hostSeqRead s idx⟩
  | .reset => .next ⟨c, resetBlock s⟩
  | .wait => .next ⟨c, hostWait s⟩
  | .skip => .next ⟨c, sequencerTurn s⟩

/-- The host move that starts the operation of command word `w` (R65). -/
def startMove (c : Config) (w : CmdWord) : HostMove c :=
  .regWrite .cmd w

/-- One step of the total order of R49: the host's next move, or, where the host has none, a turn of the
sequencer. -/
def takeTurn {c : Config} (s : Block c) : Host.Outcome State Fault Refusal :=
  match s.inbox with
  | [] => .next ⟨c, sequencerTurn (advance s [])⟩
  | m :: rest => takeMove (advance s rest) m

/-- The host's very next move becomes the write of the command word that the low `nbits` bits of `w` are
(R60, R65). DESIGN CHOICE (log 12): where they are a number above 3, which is no command word and which no transaction
carries (D30), only its low two bits are written, so that `0b100` places `GEN`; `commandWord` refuses that number. -/
def placeCommand {c : Config} (s : Block c) (nbits w : Nat) : Block c :=
  { s with inbox := startMove c (BitVec.ofNat 2 (w % 2 ^ nbits)) :: s.inbox }

end Sys2Proof.Machine
end

