-- ==== Sys2Proof/Machine/Step.lean ====
section
/-! DEFINITION. The step of the machine (spec/20_memory.md R49), and the place a command word is handed to it. -/

namespace Sys2Proof.Machine

/-- One step: the host's next move, or, where the host has none, a turn of the sequencer. -/
def step (s : State) : Host.Outcome State Fault Refusal :=
  takeTurn s.block

/-- The block fetches no instruction, it is handed one (R40): the host's very next move writes the command word
(log 8). -/
def State.withFetchWord (s : State) (nbits w : Nat) : State :=
  { s with block := placeCommand s.block nbits w }

end Sys2Proof.Machine
end

