-- ==== Sys2Proof/Machine/Script.lean ====
section
/-! DEFINITION. The host script notation (spec/30_encoding.md R66, R67): each statement and the host moves it stands
for. -/

namespace Sys2Proof.Machine

/-- The statements of R66 and the pseudo-statements of R67. -/
inductive Stmt (c : Config) where
  /-- `SET SPB, v`. -/
  | setSpb (v : BitVec c.sw)
  /-- `SET BITDUR, v`. -/
  | setBitdur (v : BitVec c.tw)
  /-- `SET LEN, v`. -/
  | setLen (v : BitVec c.aw)
  /-- `PUT idx, sym`. -/
  | put (idx : BitVec c.aw) (sym : BitVec c.symw)
  /-- `GEN`, `NRZL`, `NRZI`, `MAN`. -/
  | command (i : Instr)
  /-- `GET reg`, one of `CMD`, `STATUS`, `SPB`, `BITDUR`, `LEN`, `COUNT`. -/
  | get (rn : RegNum)
  /-- `PEEK idx`. -/
  | peek (idx : BitVec c.aw)
  /-- `LOAD [b0, ..., b(n-1)]`. -/
  | load (bits : List (BitVec c.symw))
  /-- `WAIT`. -/
  | wait
  /-- `RESET`. -/
  | reset
  deriving DecidableEq, Repr

/-- What the notation can say: `GET` of a named register only (R66), `LOAD` of at most `2^AW - 1` elements, since a
longer sequence cannot be expressed (R151, R183). -/
def Stmt.wellFormed {c : Config} : Stmt c → Bool
  | .setSpb _ => true
  | .setBitdur _ => true
  | .setLen _ => true
  | .put _ _ => true
  | .command i => i.wellFormed
  | .get rn => decide (rn ≠ .reserved6) && decide (rn ≠ .reserved7)
  | .peek _ => true
  | .load bits => decide (bits.length < 2 ^ c.aw)
  | .wait => true
  | .reset => true

/-- `PUT n, b0`, `PUT n+1, b1`, ... (R67). DESIGN CHOICE (log 15): an index that `AW` bits cannot hold is taken modulo
`2^AW`. -/
def putMoves (c : Config) : Nat → List (BitVec c.symw) → List (HostMove c)
  | _, [] => []
  | n, b :: bs => .seqWrite (BitVec.ofNat c.aw n) b :: putMoves c (n + 1) bs

/-- The moves a statement stands for (R66, R67). DESIGN CHOICE (log 15): it is total and does not consult
`Stmt.wellFormed`, so that the ill-formed statements, which the spec cannot express (R151 (d), R183, U15), have moves
too: a `LOAD` of `2^AW` or more elements writes its cell indices and `LEN` modulo `2^AW`, and a `GET` of a reserved
number reads it. -/
def stmtMoves {c : Config} : Stmt c → List (HostMove c)
  | .setSpb v => [.regWrite .spb v]
  | .setBitdur v => [.regWrite .bitdur v]
  | .setLen v => [.regWrite .len v]
  | .put idx sym => [.seqWrite idx sym]
  | .command i => [startMove c (encode i)]
  | .get rn => [.regRead rn]
  | .peek idx => [.seqRead idx]
  | .load bits => putMoves c 0 bits ++ [.regWrite .len (BitVec.ofNat c.aw bits.length)]
  | .wait => [.wait]
  | .reset => [.reset]

/-- The moves of a script: its statements' moves in order. DESIGN CHOICE (log 13): no `skip` stands between them, so that
outside `WAIT` no sequencer step falls between two statements, while R49 allows any number there; another
interleaving is the same list with `skip`s put in. -/
def scriptMoves {c : Config} : List (Stmt c) → List (HostMove c)
  | [] => []
  | st :: rest => stmtMoves st ++ scriptMoves rest

end Sys2Proof.Machine
end

