-- ==== Sys2Proof/Machine/Time.lean ====
section
/-! DEFINITION. The time axis (spec/40_timebase_gen.md R83): a function of the sample index and the configuration,
not state (spec/10_state.md R28). The block emits the index; the consumer computes the time. -/

namespace Sys2Proof.Machine

/-- `T = BITDUR * TICK`, in seconds, exact (R12). -/
def bitDuration {c : Config} (s : Block c) : ℚ :=
  (s.bitdur.toNat : ℚ) * c.tick

/-- `Time(k) = k * (T / S)`, in seconds, exact (R83). DESIGN CHOICE (log 14): with `SPB = 0`, which no accepted run has
and for which R83 gives no value, the total division of the rationals makes it 0. -/
def timeAt {c : Config} (s : Block c) (k : Nat) : ℚ :=
  (k : ℚ) * (bitDuration s / (s.spb.toNat : ℚ))

end Sys2Proof.Machine
end

