-- ==== Sys2Proof/Machine/Waveform.lean ====
section
/-! DEFINITION. The result of a run as a function of its input (spec/40_timebase_gen.md R87): what each operation
computes, with no counter and no step. The step machine is held against it by the statements. -/

namespace Sys2Proof.Machine

/-- `Lvl(op, b, j, S, lev)`, R81's table of the level of one sample. -/
def lvl {w : Nat} (op : Instr) (b : Bit) (j spb : BitVec w) (lev : Bit) : Bit :=
  match op with
  | .gen => b
  | .nrzl => b
  | .nrzi => lev
  | .man => if j < spb >>> 1 then b else 1#1 - b

/-- The latch after the first `n` bits: `levAfter 0 = lev(-1) = 0`, `levAfter (i + 1) = lev(i)` (R87, R113, R118). -/
def levAfter (seq : Nat → Bit) : Nat → Bit
  | 0 => 0#1
  | n + 1 => levAfter seq n ^^^ seq n

/-- `w_op(k)` of R87, for `spb` samples per bit. -/
def wave (op : Instr) (spb : Nat) (seq : Nat → Bit) (k : Nat) : Bit :=
  match op with
  | .gen => seq (k / spb)
  | .nrzl => seq (k / spb)
  | .nrzi => levAfter seq (k / spb + 1)
  | .man => if k % spb < spb / 2 then seq (k / spb) else 1#1 - seq (k / spb)

/-- The trace of an accepted run of `n` bits (R87): the events `(k, w_op(k))` for `k = 0 .. n * spb - 1`. -/
def waveform (op : Instr) (spb n : Nat) (seq : Nat → Bit) : List (Nat × Bit) :=
  (List.range (n * spb)).map fun k => (k, wave op spb seq k)

/-- How many of the first `n` bits are 1 (R116, R134). -/
def onesBelow (seq : Nat → Bit) : Nat → Nat
  | 0 => 0
  | n + 1 => onesBelow seq n + (seq n).toNat

end Sys2Proof.Machine
end

