-- ==== Sys2Proof/Machine/Trace.lean ====
section
/-! DEFINITION. The observer's trace (spec/10_state.md R28, R29): the events of the steps, in emission order. The
block does not keep it. -/

namespace Sys2Proof.Machine

/-- The event of the last step, if it was a sample step, as (index, level). -/
def samplesOf {c : Config} (s : Block c) : List (Nat × Bit) :=
  s.out.toList.map fun e => (e.k.toNat, e.level)

/-- The events of the next `n` steps. -/
def traceOf : Nat → State → List (Nat × Bit)
  | 0, _ => []
  | n + 1, s =>
    match step s with
    | .next t => samplesOf t.block ++ traceOf n t
    | .fault _ => []
    | .refused _ => []

/-- The state `n` steps on, where no step stops. -/
def stateAfter : Nat → State → State
  | 0, s => s
  | n + 1, s =>
    match step s with
    | .next t => stateAfter n t
    | .fault _ => s
    | .refused _ => s

/-- `LEN * SPB`, the number of events of an accepted run (R82). -/
def runLength {c : Config} (s : Block c) : Nat := s.len.toNat * s.spb.toNat

end Sys2Proof.Machine
end

