-- ==== Sys2Proof/Safety.lean ====
section
/-! DEFINITION. What holds of every state a run reaches (spec/10_state.md R30, spec/42_nrzi.md R111, R116), as
predicates on one state. -/

namespace Sys2Proof.Machine

/-- R30's conditions on a state with `PHASE = RUN`. -/
structure RunningOk {c : Config} (s : Block c) : Prop where
  len_pos : 1 ≤ s.len.toNat
  spb_pos : 1 ≤ s.spb.toNat
  bitdur_pos : 1 ≤ s.bitdur.toNat
  cells_binary : ∀ n, n < s.len.toNat → (cellAt s n).toNat < 2
  i_lt : s.i.toNat < s.len.toNat
  j_lt : s.j.toNat < s.spb.toNat
  k_eq : s.k.toNat = s.i.toNat * s.spb.toNat + s.j.toNat
  errcause_zero : s.errcause = 0#4

/-- `I = J = K = 0` (R30, R36). -/
def AtOrigin {c : Config} (s : Block c) : Prop :=
  s.i.toNat = 0 ∧ s.j.toNat = 0 ∧ s.k.toNat = 0

/-- The invariant of `SEQ`: the canonical form, in which equal memories are equal data (R40; log 3). -/
def MemoryInvariant {c : Config} (s : Block c) : Prop :=
  Memory.wf c.aw s.seq = true

/-- The invariant of the registers: R30's conditions, phase by phase. -/
structure RunInvariant {c : Config} (s : Block c) : Prop where
  running : s.phase = .run → RunningOk s
  failed : s.phase = .err → AtOrigin s ∧ s.errcause ≠ 0#4
  fresh : s.phase = .idle → AtOrigin s ∧ s.errcause = 0#4
  finished : s.phase = .done → s.j.toNat = 0 ∧ s.errcause = 0#4

/-- The value of the latch during a run: in an `NRZI` run, `lev` of the bits whose block has begun (R110, R111); in
every other run still the 0 of the start step (R21). -/
def LatchInvariant {c : Config} (s : Block c) : Prop :=
  s.phase = .run →
    (decode s.op = .nrzi →
      s.level = levAfter (seqBitAt s) (if s.j.toNat = 0 then s.i.toNat else s.i.toNat + 1)) ∧
    (decode s.op ≠ .nrzi → s.level = 0#1)

/-- What a finished run leaves (R30, R87): `I = LEN`, `J = 0`, `K = LEN * SPB`, `ERRCAUSE = 0`. -/
def RunFinished {c : Config} (s : Block c) : Prop :=
  s.phase = .done ∧ s.i.toNat = s.len.toNat ∧ s.j.toNat = 0 ∧ s.k.toNat = runLength s ∧
    s.errcause = 0#4

end Sys2Proof.Machine
end

