-- ==== Sys2Proof/Certificates/Slice0/Obligations.lean ====
section
/-! DEFINITION. The statements for the provers. Every statement holds for every block that R6 allows: `c` carries the
parameters and `s : Block c` is a state of such a block; `⟨c, s⟩` is the machine in that state. -/

open Sys2Proof Sys2Proof.Machine

/-! ### Words shared by the statements -/

namespace Sys2Proof.Machine

/-- The host may start a run (R65), no host move waits, and the input is valid (R142): the next command is accepted
and its run is left to the sequencer. -/
def Startable {c : Config} (s : Block c) : Prop :=
  s.phase ≠ .run ∧ s.inbox = [] ∧ validate s = 0b0000#4

/-- What an accepted start command for `i` leaves (R80). -/
def startedRun {c : Config} (i : Instr) (s : Block c) : Block c :=
  { s with
    op := encode i
    i := 0#c.aw
    j := 0#c.sw
    k := 0#c.kw
    level := 0#1
    errcause := 0b0000#4
    phase := .run }

/-- The whole trace of the run that the accepted command `i` starts. -/
def runTrace {c : Config} (i : Instr) (s : Block c) : List (Nat × Bit) :=
  traceOf (runLength s) ⟨c, startedRun i s⟩

/-- The machine at the end of that run. -/
def runEnd {c : Config} (i : Instr) (s : Block c) : State :=
  stateAfter (runLength s) ⟨c, startedRun i s⟩

/-- The level of event number `k` of a trace. -/
def levelAt (tr : List (Nat × Bit)) (k : Nat) : Option Bit :=
  tr[k]?.map Prod.snd

/-- What every step does around the host's move: the moves still to come become `rest`, the event and the read data of
the step before are gone, the draw counter advances. This is the model's bookkeeping (logs 2, 4, 5 and 6): no
statement cites a rule for it. -/
def taken {c : Config} (s : Block c) (rest : List (HostMove c)) : Block c :=
  { s with inbox := rest, out := none, reply := none, draws := s.draws + 1 }

/-- The input of a run is the same: configuration registers and cells. -/
def SameInput {c : Config} (s t : Block c) : Prop :=
  t.spb = s.spb ∧ t.bitdur = s.bitdur ∧ t.len = s.len ∧ ∀ n, cellAt t n = cellAt s n

end Sys2Proof.Machine

/-! ### Encoding -/

/-- R63: "A decoder of this block is total: it maps `0b00, 0b01, 0b10, 0b11` to `GEN, NRZL, NRZI, MAN` and has no
other case." -/
def Obligations.DecoderIsTotal : Prop :=
  decode 0b00#2 = .gen ∧ decode 0b01#2 = .nrzl ∧ decode 0b10#2 = .nrzi ∧ decode 0b11#2 = .man ∧
    ∀ w : CmdWord, w = 0b00#2 ∨ w = 0b01#2 ∨ w = 0b10#2 ∨ w = 0b11#2

/-- R60, R61: the four rows of the opcode table, laid out in a byte, decode to their operations; a byte with a bit
above bit 1 is no command word and is refused by name. -/
def Obligations.TableWordsDecode : Prop :=
  decodeTableWord 8 0b00 = some .gen ∧ decodeTableWord 8 0b01 = some .nrzl ∧
    decodeTableWord 8 0b10 = some .nrzi ∧ decodeTableWord 8 0b11 = some .man ∧
    ∀ w, 4 ≤ w → w < 256 →
      decodeTableWord 8 w = none ∧ commandWord 8 w = .error .widerThanCommandWord

/-- R61, R63: every well-formed operation is decoded from its word, and every word is the word of its operation. -/
def Obligations.DecodeAndEncodeAgree : Prop :=
  (∀ i : Instr, i.wellFormed = true → decode (encode i) = i) ∧ ∀ w : CmdWord, encode (decode w) = w

/-- R60, R65: a step whose host move writes the word `w` to `CMD` is `exec` of the operation `w` decodes to, after
what every step does first (the move is taken, the ports and the read data of the step before are gone, the model's
draw counter advances); and `withFetchWord` makes the very next step run the operation of a table word. -/
def Obligations.StepRunsDecodedCommand : Prop :=
  (∀ (c : Config) (s : Block c) (w : CmdWord) (rest : List (HostMove c)),
    s.inbox = .regWrite .cmd w :: rest →
      step ⟨c, s⟩ = exec (decode w) ⟨c, taken s rest⟩) ∧
  ∀ (c : Config) (s : Block c) (nbits w : Nat) (i : Instr),
    decodeTableWord nbits w = some i →
      step (State.withFetchWord ⟨c, s⟩ nbits w) =
        exec i ⟨c, taken s s.inbox⟩

/-! ### The start step and InvalidInput -/

/-- R80: the start step as one step of the machine: the pseudocode's writes, no event, an empty trace, the same for
all four operations. -/
def Obligations.StartStepEffect : Prop :=
  ∀ (c : Config) (s : Block c) (w : CmdWord) (rest : List (HostMove c)),
    s.inbox = .regWrite .cmd w :: rest → s.phase ≠ .run →
      ∃ t : Block c, step ⟨c, s⟩ = .next ⟨c, t⟩ ∧ samplesOf t = [] ∧ outValid t = false ∧
        t = { taken s rest with
          op := w
          i := 0#c.aw
          j := 0#c.sw
          k := 0#c.kw
          level := 0#1
          errcause := validate s
          phase := if validate s ≠ 0b0000#4 then .err else .run }

/-- R80, R85, R100, R113, R127: GEN, NRZL, NRZI and MAN complete. Outside `RUN`, with a valid input, the command
answers exactly the state of an accepted start: its own code in `OP`, the position and the latch cleared, `ERRCAUSE`
0, `PHASE` `RUN`, and nothing else changed. -/
def Obligations.AcceptedStartCompletes : Prop :=
  ∀ (i : Instr) (c : Config) (s : Block c), s.phase ≠ .run → validate s = 0b0000#4 →
    exec i ⟨c, s⟩ = .next ⟨c, { s with
      op := encode i
      i := 0#c.aw
      j := 0#c.sw
      k := 0#c.kw
      level := 0#1
      errcause := 0b0000#4
      phase := .run }⟩

/-- R144: the entry of InvalidInput, for all four operations: what it writes, that nothing else changes, that no event
is emitted, and that the block then waits in `ERR` with no enabled step. That a turn in `ERR` answers a next state,
with the block kept, is the model's choice (log 10, DESIGN CHOICE). -/
def Obligations.RejectedStartEntersErr : Prop :=
  (∀ (i : Instr) (c : Config) (s : Block c), s.phase ≠ .run → validate s ≠ 0b0000#4 →
    exec i ⟨c, s⟩ = .next ⟨c, { s with
      op := encode i
      i := 0#c.aw
      j := 0#c.sw
      k := 0#c.kw
      level := 0#1
      errcause := validate s
      phase := .err }⟩) ∧
  (∀ (c : Config) (s : Block c) (w : CmdWord) (rest : List (HostMove c)), s.inbox = .regWrite .cmd w :: rest →
    s.phase ≠ .run → validate s ≠ 0b0000#4 →
      ∃ t : Block c, step ⟨c, s⟩ = .next ⟨c, t⟩ ∧ t.phase = .err ∧ samplesOf t = []) ∧
  ∀ (c : Config) (s : Block c), s.phase = .err → s.inbox = [] →
    step ⟨c, s⟩ = .next ⟨c, taken s []⟩

/-- R175: a start command during a run is lost, is not queued, does not abort the run; of two commands back to back
only the first gets its run. -/
def Obligations.CommandDuringRunIsLost : Prop :=
  (∀ (i : Instr) (c : Config) (s : Block c), s.phase = .run → exec i ⟨c, s⟩ = .next ⟨c, s⟩) ∧
  (∀ (c : Config) (s : Block c) (w : CmdWord) (rest : List (HostMove c)),
    s.inbox = .regWrite .cmd w :: rest → s.phase = .run →
      step ⟨c, s⟩ = .next ⟨c, taken s rest⟩) ∧
  ∀ (c : Config) (s : Block c) (w₁ w₂ : CmdWord) (rest : List (HostMove c)),
    s.inbox = .regWrite .cmd w₁ :: .regWrite .cmd w₂ :: rest → s.phase ≠ .run →
      validate s = 0b0000#4 →
      ∃ u : Block c, stateAfter 2 ⟨c, s⟩ = ⟨c, u⟩ ∧ u.op = w₁ ∧ u.phase = .run ∧ u.k = 0#c.kw ∧
        u.inbox = rest

/-- R25, R31, R46, R143, R144: the frame of the four commands: the parameters, the configuration registers, every
cell, the output and the host's moves are as before, whether the command is accepted, rejected or ignored. -/
def Obligations.CommandFrame : Prop :=
  ∀ (i : Instr) (c : Config) (s t : Block c), exec i ⟨c, s⟩ = .next ⟨c, t⟩ →
    SameInput s t ∧ samplesOf t = samplesOf s ∧ t.reply = s.reply ∧
      t.inbox = s.inbox ∧ t.draws = s.draws ∧ t.seqDraw = s.seqDraw

/-- R142: the mask of `Validate()`, bit by bit, each condition independent of the others (so simultaneous causes each
set their bit); the input is valid exactly when no condition holds; with `SYMW = 1`, and with `LEN = 0`, bit 1 is 0;
no cell at or above `LEN` is read. -/
def Obligations.ValidateMask : Prop :=
  (∀ (c : Config) (s : Block c),
    ((validate s).getLsbD 0 = true ↔ s.len.toNat = 0) ∧
    ((validate s).getLsbD 1 = true ↔ ∃ n, n < s.len.toNat ∧ 2 ≤ (cellAt s n).toNat) ∧
    ((validate s).getLsbD 2 = true ↔ s.bitdur.toNat = 0) ∧
    ((validate s).getLsbD 3 = true ↔ s.spb.toNat = 0) ∧
    (validate s = 0b0000#4 ↔
      1 ≤ s.len.toNat ∧ (∀ n, n < s.len.toNat → (cellAt s n).toNat < 2) ∧
        1 ≤ s.bitdur.toNat ∧ 1 ≤ s.spb.toNat) ∧
    (c.symw = 1 ∨ s.len.toNat = 0 → (validate s).getLsbD 1 = false)) ∧
  ∀ (c : Config) (s t : Block c), s.len = t.len → s.bitdur = t.bitdur → s.spb = t.spb →
    (∀ n, n < s.len.toNat → cellAt s n = cellAt t n) → validate s = validate t

/-! ### Reset -/

/-- R36: what reset leaves, for every block: 100 in `SPB`, 1 in `BITDUR`, 0 in every other register, `IDLE`,
`OUT_VALID = 0` (the other two ports hold unspecified values), no cell written (each cell holds its unspecified
value). `State.reset` is that state at R6's default parameters, with no host move waiting. -/
def Obligations.ResetValues : Prop :=
  (∀ (c : Config) (d : Nat) (ms : List (HostMove c)),
    (Block.powerOn c d ms).spb.toNat = 100 ∧ (Block.powerOn c d ms).bitdur.toNat = 1 ∧
    (Block.powerOn c d ms).len.toNat = 0 ∧ (Block.powerOn c d ms).op = 0b00#2 ∧
    (Block.powerOn c d ms).phase = .idle ∧ (Block.powerOn c d ms).errcause = 0b0000#4 ∧
    (Block.powerOn c d ms).i.toNat = 0 ∧ (Block.powerOn c d ms).j.toNat = 0 ∧
    (Block.powerOn c d ms).k.toNat = 0 ∧ (Block.powerOn c d ms).level = 0#1 ∧
    outValid (Block.powerOn c d ms) = false ∧
    outK (Block.powerOn c d ms) = Config.idleOutK c.kw (Block.powerOn c d ms).draws ∧
    outLevel (Block.powerOn c d ms) = Config.idleOutLevel (Block.powerOn c d ms).draws ∧
    (Block.powerOn c d ms).seq = [] ∧ ∀ n, cellAt (Block.powerOn c d ms) n =
      Config.unwrittenCell c.symw (Block.powerOn c d ms).seqDraw n) ∧
  ∃ d : Nat, State.reset = ⟨Config.default, Block.powerOn Config.default d []⟩

/-- R170: the reset input acts in any phase, writes every register with its reset value, makes every cell unspecified
again, and emits no event. That the host's later moves and the model's draw counter stay is the model's choice
(logs 2 and 4). -/
def Obligations.ResetInputInAnyPhase : Prop :=
  ∀ (c : Config) (s : Block c) (rest : List (HostMove c)), s.inbox = .reset :: rest →
    ∃ t : Block c, step ⟨c, s⟩ = .next ⟨c, t⟩ ∧ t = Block.powerOn c (s.draws + 1) rest ∧ samplesOf t = [] ∧
      t.phase = .idle

/-- R171: after reset the phase is `IDLE`, no step is enabled, `OUT_VALID = 0`; nothing runs until the host writes `CMD`,
whatever else it does; a start command given right after reset is rejected with `ERRCAUSE = 0b0001`. -/
def Obligations.AfterResetBlockWaits : Prop :=
  ∀ (c : Config) (d : Nat),
    (Block.powerOn c d []).phase = .idle ∧ outValid (Block.powerOn c d []) = false ∧
    (∀ n, (stateAfter n ⟨c, Block.powerOn c d []⟩).block.phase = .idle ∧
      traceOf n ⟨c, Block.powerOn c d []⟩ = []) ∧
    (∀ s t : Block c, s.phase = .idle → (∀ w rest, s.inbox ≠ .regWrite .cmd w :: rest) →
      step ⟨c, s⟩ = .next ⟨c, t⟩ → t.phase = .idle ∧ samplesOf t = []) ∧
    ∀ w : CmdWord, ∃ t : Block c, step ⟨c, Block.powerOn c d [startMove c w]⟩ = .next ⟨c, t⟩ ∧
      t.phase = .err ∧ t.errcause = 0b0001#4 ∧ t.op = w

/-! ### The sample step and the turns of the sequencer -/

/-- R81: the sample step, line by line of its pseudocode, as one step of the machine with no host move; only
a step from `RUN` emits an event. It holds in every state with `PHASE = RUN`: in one that breaks R30, which no run
reaches, the wrapping `SPB - 1`, `LEN - 1`, `I + 1`, `J + 1`, `K + 1` and bit 0 of a cell that is no valid bit are the
model's choice (log 7, DESIGN CHOICE). -/
def Obligations.SampleStepEffect : Prop :=
  (∀ (c : Config) (s : Block c), s.inbox = [] → s.phase = .run →
    let b := seqBitAt s s.i.toNat
    let lev := if s.op = 0b10#2 ∧ s.j = 0#c.sw then s.level ^^^ b else s.level
    let l := if s.op = 0b10#2 then lev
      else if s.op = 0b11#2 then (if s.j.toNat < s.spb.toNat / 2 then b else 1#1 - b)
      else b
    step ⟨c, s⟩ = .next ⟨c, { taken s [] with
      level := lev
      out := some ⟨s.k, l⟩
      phase := if s.j = s.spb - 1#c.sw ∧ s.i = s.len - 1#c.aw then .done else .run
      i := if s.j = s.spb - 1#c.sw then s.i + 1#c.aw else s.i
      j := if s.j = s.spb - 1#c.sw then 0#c.sw else s.j + 1#c.sw
      k := s.k + 1#c.kw }⟩) ∧
  ∀ (c : Config) (s t : Block c), step ⟨c, s⟩ = .next ⟨c, t⟩ → outValid t = true → s.phase = .run

/-- R29: the output ports: a step that emitted `(k, l)` shows `OUT_VALID = 1`, `OUT_K = k`, `OUT_LEVEL = l`; after every
other step `OUT_VALID = 0` and the other two hold unspecified values (free values, log 5); every sequencer turn in
`RUN` emits exactly one event, at `K`. -/
def Obligations.OutputPorts : Prop :=
  (∀ (c : Config) (s : Block c) (e : Event c), s.out = some e →
    outValid s = true ∧ outK s = e.k ∧ outLevel s = e.level ∧ samplesOf s = [(e.k.toNat, e.level)]) ∧
  (∀ (c : Config) (s : Block c), s.out = none →
    outValid s = false ∧ outK s = Config.idleOutK c.kw s.draws ∧ outLevel s = Config.idleOutLevel s.draws ∧
      samplesOf s = []) ∧
  ∀ (c : Config) (s : Block c), s.phase = .run → s.inbox = [] →
    ∃ (t : Block c) (l : Bit), step ⟨c, s⟩ = .next ⟨c, t⟩ ∧ t.out = some ⟨s.k, l⟩

/-- R82, R156: in `IDLE`, `DONE` and `ERR` the sequencer has no enabled step and all state is kept; only the
observation of the step before (ports, read data) is gone and the model's draw counter advances. -/
def Obligations.NoEnabledStepOutsideRun : Prop :=
  ∀ (c : Config) (s : Block c), s.phase ≠ .run →
    (s.inbox = [] →
      step ⟨c, s⟩ = .next ⟨c, taken s []⟩) ∧
    ∀ rest : List (HostMove c), s.inbox = .skip :: rest ∨ s.inbox = .wait :: rest →
      step ⟨c, s⟩ = .next ⟨c, taken s rest⟩

/-- R21, R110, R111, R115: the latch's transition table in an `NRZI` run: at a bit boundary the four rows of R115,
inside a block no change; the event carries the latch just written. In a state that breaks R30 the input bit is bit 0
of the cell, the model's choice (log 7). -/
def Obligations.NrziTransitionTable : Prop :=
  ∀ (c : Config) (s : Block c), s.inbox = [] → s.phase = .run → s.op = 0b10#2 →
    ∃ t : Block c, step ⟨c, s⟩ = .next ⟨c, t⟩ ∧ samplesOf t = [(s.k.toNat, t.level)] ∧
      (s.j.toNat ≠ 0 → t.level = s.level) ∧
      (s.j.toNat = 0 →
        (s.level = 0#1 ∧ seqBitAt s s.i.toNat = 0#1 → t.level = 0#1) ∧
        (s.level = 0#1 ∧ seqBitAt s s.i.toNat = 1#1 → t.level = 1#1) ∧
        (s.level = 1#1 ∧ seqBitAt s s.i.toNat = 0#1 → t.level = 1#1) ∧
        (s.level = 1#1 ∧ seqBitAt s s.i.toNat = 1#1 → t.level = 0#1))

/-- R110: the start step of every run writes 0 into `LEVEL`, whatever earlier runs did. -/
def Obligations.StartClearsLatch : Prop :=
  ∀ (i : Instr) (c : Config) (s : Block c), s.phase ≠ .run → ∃ t : Block c, exec i ⟨c, s⟩ = .next ⟨c, t⟩ ∧ t.level = 0#1

/-- R131: the Manchester level is the bit exclusive-or `HALF`, with `HALF = 1` if `j >= (S >> 1)` and 0 otherwise. -/
def Obligations.ManchesterIsXorWithHalf : Prop :=
  ∀ (w : Nat) (b : Bit) (j spb : BitVec w),
    levelMan b j spb = b ^^^ half j spb ∧
      (half j spb = 1#1 ↔ spb.toNat / 2 ≤ j.toNat) ∧ (half j spb = 0#1 ↔ j.toNat < spb.toNat / 2)

/-! ### Host transactions -/

/-- R174: a `RegWrite` or `SeqWrite` while `PHASE = RUN` is ignored, not deferred. -/
def Obligations.HostWritesDuringRunAreLost : Prop :=
  ∀ (c : Config) (s : Block c) (rest : List (HostMove c)), s.phase = .run →
    (∀ (rn : RegNum) (data : BitVec (rn.width c)), s.inbox = .regWrite rn data :: rest →
      step ⟨c, s⟩ = .next ⟨c, taken s rest⟩) ∧
    ∀ (idx : BitVec c.aw) (sym : BitVec c.symw), s.inbox = .seqWrite idx sym :: rest →
      step ⟨c, s⟩ = .next ⟨c, taken s rest⟩

/-- R25: a host write takes effect only outside `RUN`; there a write to `SPB`, `BITDUR` or `LEN` replaces the whole
register and changes no other; a write to `STATUS`, `COUNT` or a reserved number changes nothing in any phase; in
`RUN` a write to any register, `CMD` included, changes nothing. -/
def Obligations.RegisterWriteEffect : Prop :=
  ∀ (c : Config) (s : Block c) (rest : List (HostMove c)),
    let s' : Block c := taken s rest
    (s.phase ≠ .run →
      (∀ v, s.inbox = .regWrite .spb v :: rest → step ⟨c, s⟩ = .next ⟨c, { s' with spb := v }⟩) ∧
      (∀ v, s.inbox = .regWrite .bitdur v :: rest → step ⟨c, s⟩ = .next ⟨c, { s' with bitdur := v }⟩) ∧
      (∀ v, s.inbox = .regWrite .len v :: rest → step ⟨c, s⟩ = .next ⟨c, { s' with len := v }⟩)) ∧
    (∀ v, s.inbox = .regWrite .status v :: rest → step ⟨c, s⟩ = .next ⟨c, s'⟩) ∧
    (∀ v, s.inbox = .regWrite .count v :: rest → step ⟨c, s⟩ = .next ⟨c, s'⟩) ∧
    (∀ v, s.inbox = .regWrite .reserved6 v :: rest → step ⟨c, s⟩ = .next ⟨c, s'⟩) ∧
    (∀ v, s.inbox = .regWrite .reserved7 v :: rest → step ⟨c, s⟩ = .next ⟨c, s'⟩) ∧
    (s.phase = .run → ∀ (rn : RegNum) (data : BitVec (rn.width c)),
      s.inbox = .regWrite rn data :: rest → step ⟨c, s⟩ = .next ⟨c, s'⟩)

/-- R26: a host read is allowed in every phase, returns the "host read returns" column of R24, has no side effect, and
shows nothing of `I`, `J` and `LEVEL`. -/
def Obligations.RegisterReadEffect : Prop :=
  (∀ (c : Config) (s : Block c) (rn : RegNum) (rest : List (HostMove c)), s.inbox = .regRead rn :: rest →
    step ⟨c, s⟩ = .next ⟨c, { taken s rest with reply := some ⟨rn.width c, regValue s rn⟩ }⟩) ∧
  (∀ (c : Config) (s : Block c), regValue s .cmd = s.op ∧
    regValue s .status = s.errcause ++ s.op ++ s.phase.bits ∧
    regValue s .spb = s.spb ∧ regValue s .bitdur = s.bitdur ∧ regValue s .len = s.len ∧
    regValue s .count = s.k ∧ regValue s .reserved6 = 0#0 ∧ regValue s .reserved7 = 0#0) ∧
  ∀ (c : Config) (s : Block c) (rn : RegNum) (i : BitVec c.aw) (j : BitVec c.sw) (l : Bit),
    regValue { s with i := i, j := j, level := l } rn = regValue s rn

/-- R27: register numbers 6 and 7 are reserved: a read returns 0, a write is ignored, neither raises anything. -/
def Obligations.ReservedRegisters : Prop :=
  RegNum.ofNumber 6#3 = .reserved6 ∧ RegNum.ofNumber 7#3 = .reserved7 ∧
  ∀ (c : Config) (s : Block c) (rn : RegNum) (rest : List (HostMove c)),
    rn = .reserved6 ∨ rn = .reserved7 →
    (s.inbox = .regRead rn :: rest → ∃ (t : Block c) (r : Reply), step ⟨c, s⟩ = .next ⟨c, t⟩ ∧ t.reply = some r ∧
      r.data.toNat = 0) ∧
    ∀ data : BitVec (rn.width c), s.inbox = .regWrite rn data :: rest →
      step ⟨c, s⟩ = .next ⟨c, taken s rest⟩

/-- R22: `STATUS` is a read-only 8-bit view, register number 1: its three fields, what a read returns, that a read
changes nothing, that a write changes nothing. -/
def Obligations.StatusLayout : Prop :=
  RegNum.number .status = 1#3 ∧
  ∀ (c : Config) (s : Block c),
    (status s).extractLsb' 0 2 = s.phase.bits ∧ (status s).extractLsb' 2 2 = s.op ∧
    (status s).extractLsb' 4 4 = s.errcause ∧
    (∀ rest : List (HostMove c), s.inbox = .regRead .status :: rest →
      step ⟨c, s⟩ = .next ⟨c, { taken s rest with reply := some ⟨8, status s⟩ }⟩) ∧
    ∀ (v : BitVec 8) (rest : List (HostMove c)), s.inbox = .regWrite .status v :: rest →
      step ⟨c, s⟩ = .next ⟨c, taken s rest⟩

/-- R24: the register numbers are 3 bits wide and the map is complete: each number names one register, and the numbers
and widths are the table's. -/
def Obligations.RegisterMapIsComplete : Prop :=
  (∀ n : BitVec 3, (RegNum.ofNumber n).number = n) ∧ (∀ rn : RegNum, RegNum.ofNumber rn.number = rn) ∧
  RegNum.number .cmd = 0#3 ∧ RegNum.number .status = 1#3 ∧ RegNum.number .spb = 2#3 ∧
  RegNum.number .bitdur = 3#3 ∧ RegNum.number .len = 4#3 ∧ RegNum.number .count = 5#3 ∧
  ∀ c : Config, RegNum.width c .cmd = 2 ∧ RegNum.width c .status = 8 ∧ RegNum.width c .spb = c.sw ∧
    RegNum.width c .bitdur = c.tw ∧ RegNum.width c .len = c.aw ∧ RegNum.width c .count = c.aw + c.sw

/-- R44: `SeqWrite` outside `RUN` writes exactly that cell; in `RUN` nothing is written; no register changes in either
case; any cell may be written, those at or above `LEN` too. -/
def Obligations.SeqWriteEffect : Prop :=
  ∀ (c : Config) (s : Block c) (idx : BitVec c.aw) (sym : BitVec c.symw) (rest : List (HostMove c)),
    s.inbox = .seqWrite idx sym :: rest →
    let s' : Block c := taken s rest
    (s.phase ≠ .run → ∃ m : Memory c.symw,
      step ⟨c, s⟩ = .next ⟨c, { s' with seq := m }⟩ ∧ memRead { s' with seq := m } idx = sym ∧
        ∀ n, n ≠ idx.toNat → cellAt { s' with seq := m } n = cellAt s n) ∧
    (s.phase = .run → step ⟨c, s⟩ = .next ⟨c, s'⟩)

/-- R45: `SeqRead` returns the cell in every phase and changes nothing. -/
def Obligations.SeqReadEffect : Prop :=
  ∀ (c : Config) (s : Block c) (idx : BitVec c.aw) (rest : List (HostMove c)),
    s.inbox = .seqRead idx :: rest →
      step ⟨c, s⟩ = .next ⟨c, { taken s rest with reply := some ⟨c.symw, memRead s idx⟩ }⟩

/-! ### Rules of the whole machine -/

/-- R30, R36: the invariants hold after reset, for every block. -/
def Obligations.ResetMeetsInvariants : Prop :=
  (∀ (c : Config) (d : Nat) (ms : List (HostMove c)),
    RunInvariant (Block.powerOn c d ms) ∧ LatchInvariant (Block.powerOn c d ms) ∧
      MemoryInvariant (Block.powerOn c d ms)) ∧
  RunInvariant State.reset.block ∧ LatchInvariant State.reset.block ∧ MemoryInvariant State.reset.block

/-- R30: every step, whatever the host does, keeps the conditions R30 puts on `RUN` (the valid input, `I < LEN`,
`J < SPB`, `K = I * SPB + J`, `ERRCAUSE = 0`), on `ERR`, on `IDLE` and on `DONE`. -/
def Obligations.StepKeepsRunInvariant : Prop :=
  ∀ (c : Config) (s t : Block c), RunInvariant s → step ⟨c, s⟩ = .next ⟨c, t⟩ → RunInvariant t

/-- R40, R42: every step, whatever the host does, keeps the memory's canonical form (log 3): each cell at most once, and
no cell outside `0 .. 2^AW - 1`. -/
def Obligations.StepKeepsMemoryForm : Prop :=
  ∀ (c : Config) (s t : Block c), MemoryInvariant s → step ⟨c, s⟩ = .next ⟨c, t⟩ → MemoryInvariant t

/-- R21, R110, R111, R113: every step keeps the latch's meaning: in an `NRZI` run it is `lev` of the bits whose block
has begun, in every other run it is 0. -/
def Obligations.StepKeepsLatchInvariant : Prop :=
  ∀ (c : Config) (s t : Block c), RunInvariant s → LatchInvariant s → step ⟨c, s⟩ = .next ⟨c, t⟩ → LatchInvariant t

/-- R143, R151: nothing of this block faults or is refused: every step answers a next state. -/
def Obligations.EveryStepHasNextState : Prop :=
  ∀ (c : Config) (s : Block c), ∃ t : Block c, step ⟨c, s⟩ = .next ⟨c, t⟩

/-- R28, R6: the parameters are fixed for the life of a model: no step changes them. -/
def Obligations.ParametersAreFixed : Prop :=
  (∀ s t : State, step s = .next t → t.cfg = s.cfg) ∧
    ∀ (i : Instr) (s t : State), exec i s = .next t → t.cfg = s.cfg

/-- R16: the codes of `PHASE`, its place in `STATUS`, and its transitions, exactly: a start outside `RUN` sets `RUN` or
`ERR`, the last sample sets `DONE` and every other sample keeps `RUN`, reset sets `IDLE`, and every other step keeps
it. In a state with `PHASE = RUN` that breaks R30, which no run reaches, the wrapping `SPB - 1` and `LEN - 1` that mark
the last sample are the model's choice (log 7, DESIGN CHOICE), and so is the turn outside `RUN` that keeps `PHASE` and
answers a next state (log 10). -/
def Obligations.PhaseTransitions : Prop :=
  Phase.bits .idle = 0b00#2 ∧ Phase.bits .run = 0b01#2 ∧ Phase.bits .done = 0b10#2 ∧
  Phase.bits .err = 0b11#2 ∧ (∀ (c : Config) (s : Block c), (status s).extractLsb' 0 2 = s.phase.bits) ∧
  ∀ (c : Config) (s t : Block c), step ⟨c, s⟩ = .next ⟨c, t⟩ →
    (∀ w rest, s.inbox = .regWrite .cmd w :: rest → s.phase ≠ .run →
      t.phase = if validate s = 0b0000#4 then .run else .err) ∧
    (s.phase = .run → outValid t = true →
      t.phase = if s.j = s.spb - 1#c.sw ∧ s.i = s.len - 1#c.aw then .done else .run) ∧
    (∀ rest, s.inbox = .reset :: rest → t.phase = .idle) ∧
    (s.phase = .run ∨ (∀ w rest, s.inbox ≠ .regWrite .cmd w :: rest) → outValid t = false →
      (∀ rest, s.inbox ≠ .reset :: rest) → t.phase = s.phase)

/-- R11, R12, R13, R25, R46: no operation and no sequencer step writes `SPB`, `BITDUR`, `LEN` or a cell: each changes
only by a host write to it outside `RUN`, or by reset. -/
def Obligations.InputChangesOnlyByHost : Prop :=
  ∀ (c : Config) (s t : Block c), step ⟨c, s⟩ = .next ⟨c, t⟩ → (∀ rest, s.inbox ≠ .reset :: rest) →
    (t.spb ≠ s.spb → s.phase ≠ .run ∧ ∃ v rest, s.inbox = .regWrite .spb v :: rest) ∧
    (t.bitdur ≠ s.bitdur → s.phase ≠ .run ∧ ∃ v rest, s.inbox = .regWrite .bitdur v :: rest) ∧
    (t.len ≠ s.len → s.phase ≠ .run ∧ ∃ v rest, s.inbox = .regWrite .len v :: rest) ∧
    ∀ n, cellAt t n ≠ cellAt s n →
      s.phase ≠ .run ∧ ∃ idx sym rest, s.inbox = .seqWrite idx sym :: rest ∧ idx.toNat = n

/-- R21, R111: `LEVEL` changes only by a start step (to 0), by reset (to 0), or at the first sample of a 1 bit's block
in an `NRZI` run (in a state that breaks R30, the bit 0 of the cell: log 7). -/
def Obligations.LatchChangesOnlyAtOnes : Prop :=
  ∀ (c : Config) (s t : Block c), step ⟨c, s⟩ = .next ⟨c, t⟩ → t.level ≠ s.level →
    (t.level = 0#1 ∧ s.phase ≠ .run ∧ ∃ w rest, s.inbox = .regWrite .cmd w :: rest) ∨
    (t.level = 0#1 ∧ ∃ rest, s.inbox = .reset :: rest) ∨
    (s.phase = .run ∧ s.op = 0b10#2 ∧ s.j.toNat = 0 ∧ seqBitAt s s.i.toNat = 1#1 ∧ outValid t = true)

/-- R17, R15: `OP` and `ERRCAUSE` are written only by a start step and reset. -/
def Obligations.ControlRegistersWrittenByStartOnly : Prop :=
  ∀ (c : Config) (s t : Block c), step ⟨c, s⟩ = .next ⟨c, t⟩ → t.op ≠ s.op ∨ t.errcause ≠ s.errcause →
    (∃ w rest, s.inbox = .regWrite .cmd w :: rest ∧ s.phase ≠ .run ∧ t.op = w ∧ t.errcause = validate s) ∨
    ∃ rest, s.inbox = .reset :: rest ∧ t.op = 0b00#2 ∧ t.errcause = 0b0000#4

/-- R86: in a run, the position is the sample index split by `SPB`: `I = K // SPB`, `J = K mod SPB`. -/
def Obligations.PositionIsSplitIndex : Prop :=
  ∀ (c : Config) (s : Block c), RunInvariant s → s.phase = .run →
    s.i.toNat = s.k.toNat / s.spb.toNat ∧ s.j.toNat = s.k.toNat % s.spb.toNat

/-- R90: no result of the sequencer's arithmetic wraps. -/
def Obligations.CountersDoNotWrap : Prop :=
  ∀ (c : Config) (s : Block c), RunInvariant s → s.phase = .run →
    (s.spb - 1#c.sw).toNat = s.spb.toNat - 1 ∧ (s.len - 1#c.aw).toNat = s.len.toNat - 1 ∧
    (s.j ≠ s.spb - 1#c.sw → (s.j + 1#c.sw).toNat = s.j.toNat + 1 ∧
      s.j.toNat + 1 ≤ s.spb.toNat - 1) ∧
    (s.i + 1#c.aw).toNat = s.i.toNat + 1 ∧ s.i.toNat + 1 ≤ s.len.toNat ∧
    (s.k + 1#c.kw).toNat = s.k.toNat + 1 ∧ s.k.toNat + 1 ≤ runLength s ∧
    runLength s < 2 ^ c.kw

/-- R29, R30, R49, R51, R87: the next event of a run, whatever the host does short of reset: a step from `RUN` either
emits exactly event number `K` of the waveform of R87 and advances `K`, or emits nothing and leaves position, latch
and phase alone; in both cases the input of the run, `OP` and `ERRCAUSE` stay. -/
def Obligations.NextEventOfRun : Prop :=
  ∀ (c : Config) (s t : Block c), RunInvariant s → LatchInvariant s → s.phase = .run →
    (∀ rest, s.inbox ≠ .reset :: rest) → step ⟨c, s⟩ = .next ⟨c, t⟩ →
    SameInput s t ∧ t.op = s.op ∧ t.errcause = s.errcause ∧
    ((samplesOf t = [] ∧ t.phase = .run ∧ t.level = s.level ∧ t.i = s.i ∧ t.j = s.j ∧ t.k = s.k) ∨
      (samplesOf t = [(s.k.toNat, wave (decode s.op) s.spb.toNat (seqBitAt s) s.k.toNat)] ∧
        t.k.toNat = s.k.toNat + 1 ∧ (t.phase = .done ↔ t.k.toNat = runLength s)))

/-- R30, R87, R88: the step that ends a run leaves `I = LEN`, `J = 0`, `K = LEN * SPB`, `ERRCAUSE = 0`, and so it stays
through every step in which the host neither writes nor resets. -/
def Obligations.FinishedRunEndValues : Prop :=
  (∀ (c : Config) (s t : Block c), RunInvariant s → s.phase = .run → step ⟨c, s⟩ = .next ⟨c, t⟩ → t.phase = .done →
    RunFinished t) ∧
  ∀ (c : Config) (s t : Block c), RunFinished s → step ⟨c, s⟩ = .next ⟨c, t⟩ →
    (∀ rn data rest, s.inbox ≠ .regWrite rn data :: rest) →
    (∀ idx sym rest, s.inbox ≠ .seqWrite idx sym :: rest) →
    (∀ rest, s.inbox ≠ .reset :: rest) → RunFinished t

/-! ### The run as a whole -/

/-- R87: the result of a run as a function of its input, for GEN, NRZL, NRZI and MAN. An accepted command's run, left
to the sequencer, emits exactly the waveform, event by event, and ends with `PHASE = DONE`, `I = N`, `J = 0`,
`K = N * S` and, for NRZI, the latch at `lev(N-1)`. A rejected command gives `Error(c)` with an empty trace, for
however long one waits. -/
def Obligations.RunIsWaveform : Prop :=
  (∀ (i : Instr) (c : Config) (s : Block c), Startable s → ∃ t : Block c, exec i ⟨c, s⟩ = .next ⟨c, t⟩ ∧
    traceOf (runLength s) ⟨c, t⟩ = waveform i s.spb.toNat s.len.toNat (seqBitAt s) ∧
    ∃ u : Block c, stateAfter (runLength s) ⟨c, t⟩ = ⟨c, u⟩ ∧ u.phase = .done ∧ u.i = s.len ∧
      u.j = 0#c.sw ∧ u.k.toNat = s.len.toNat * s.spb.toNat ∧ u.errcause = 0b0000#4 ∧
      u.op = encode i ∧ SameInput s u ∧
      u.level = if i = .nrzi then levAfter (seqBitAt s) s.len.toNat else 0#1) ∧
  ∀ (i : Instr) (c : Config) (s : Block c), s.phase ≠ .run → s.inbox = [] → validate s ≠ 0b0000#4 →
    ∃ t : Block c, exec i ⟨c, s⟩ = .next ⟨c, t⟩ ∧ t.phase = .err ∧ t.errcause = validate s ∧
      ∀ n, traceOf n ⟨c, t⟩ = [] ∧ ∃ u : Block c, stateAfter n ⟨c, t⟩ = ⟨c, u⟩ ∧ u.phase = .err ∧
        u.errcause = validate s ∧ u.k = 0#c.kw

/-- R184, R185: an accepted run takes exactly `LEN * SPB` sample steps after its start step: it is in `RUN` before each
of them and in `DONE` after the last, and nothing follows; a rejected run is over with its start step. -/
def Obligations.RunTakesItsSteps : Prop :=
  (∀ (i : Instr) (c : Config) (s : Block c), Startable s → ∃ t : Block c, exec i ⟨c, s⟩ = .next ⟨c, t⟩ ∧
    (∀ n, n < runLength s → (stateAfter n ⟨c, t⟩).block.phase = .run ∧
      (stateAfter n ⟨c, t⟩).block.k.toNat = n) ∧
    ∀ n, runLength s ≤ n → (stateAfter n ⟨c, t⟩).block.phase = .done ∧
      traceOf n ⟨c, t⟩ = traceOf (runLength s) ⟨c, t⟩) ∧
  ∀ (i : Instr) (c : Config) (s : Block c), s.phase ≠ .run → validate s ≠ 0b0000#4 →
    ∃ t : Block c, exec i ⟨c, s⟩ = .next ⟨c, t⟩ ∧ t.phase = .err

/-- R89: the result of a run depends on the operation, `SPB`, `BITDUR`, `LEN` and the cells below `LEN` at the start
step, and on nothing else: two blocks that agree there, whatever else differs, give the same trace step for step, the
same phase and the same cause. -/
def Obligations.RunIsPure : Prop :=
  ∀ (i : Instr) (c₁ c₂ : Config) (s₁ : Block c₁) (s₂ : Block c₂), s₁.phase ≠ .run → s₂.phase ≠ .run →
    s₁.inbox = [] → s₂.inbox = [] →
    s₁.spb.toNat = s₂.spb.toNat → s₁.bitdur.toNat = s₂.bitdur.toNat → s₁.len.toNat = s₂.len.toNat →
    (∀ n, n < s₁.len.toNat → (cellAt s₁ n).toNat = (cellAt s₂ n).toNat) →
    ∃ t₁ t₂ : State, exec i ⟨c₁, s₁⟩ = .next t₁ ∧ exec i ⟨c₂, s₂⟩ = .next t₂ ∧ ∀ n,
      traceOf n t₁ = traceOf n t₂ ∧
      (stateAfter n t₁).block.phase = (stateAfter n t₂).block.phase ∧
      (stateAfter n t₁).block.errcause = (stateAfter n t₂).block.errcause

/-- R101: `NRZL` and `GEN` produce the same trace for the same input, event by event, and differ only in the value left
in `OP`. -/
def Obligations.GenAndNrzlAgree : Prop :=
  ∀ (c : Config) (s : Block c), s.phase ≠ .run → s.inbox = [] →
    ∃ t₁ t₂ : Block c, exec .gen ⟨c, s⟩ = .next ⟨c, t₁⟩ ∧ exec .nrzl ⟨c, s⟩ = .next ⟨c, t₂⟩ ∧ ∀ n,
      traceOf n ⟨c, t₁⟩ = traceOf n ⟨c, t₂⟩ ∧
      ∃ u : Block c, stateAfter n ⟨c, t₁⟩ = ⟨c, { u with op := 0b00#2 }⟩ ∧
        stateAfter n ⟨c, t₂⟩ = ⟨c, { u with op := 0b01#2 }⟩

/-- R102: the block property of NRZL: the events of bit `n`'s block all carry the bit; the level changes only from the
last event of a block to the first of the next, and there exactly when the two bits differ. -/
def Obligations.NrzlBlockProperty : Prop :=
  ∀ (c : Config) (s : Block c), Startable s →
    exec .nrzl ⟨c, s⟩ = .next ⟨c, startedRun .nrzl s⟩ ∧
    (∀ n k, n < s.len.toNat → n * s.spb.toNat ≤ k → k < (n + 1) * s.spb.toNat →
      (runTrace .nrzl s)[k]? = some (k, seqBitAt s n)) ∧
    ∀ k, k + 1 < runLength s →
      (levelAt (runTrace .nrzl s) k ≠ levelAt (runTrace .nrzl s) (k + 1) ↔
        ∃ n, k + 1 = (n + 1) * s.spb.toNat ∧ seqBitAt s n ≠ seqBitAt s (n + 1))

/-- R114: the key property of NRZI: the level changes exactly at the bit boundaries where the bit is 1, never inside a
block; block 0 has level `SeqBit(0)`. -/
def Obligations.NrziChangesExactlyAtOnes : Prop :=
  ∀ (c : Config) (s : Block c), Startable s →
    exec .nrzi ⟨c, s⟩ = .next ⟨c, startedRun .nrzi s⟩ ∧
    (∀ n, 1 ≤ n → n < s.len.toNat →
      (levelAt (runTrace .nrzi s) (n * s.spb.toNat) ≠
          levelAt (runTrace .nrzi s) (n * s.spb.toNat - 1) ↔ seqBitAt s n = 1#1)) ∧
    levelAt (runTrace .nrzi s) 0 = some (seqBitAt s 0) ∧
    ∀ n j, n < s.len.toNat → j < s.spb.toNat →
      levelAt (runTrace .nrzi s) (n * s.spb.toNat + j) =
        levelAt (runTrace .nrzi s) (n * s.spb.toNat)

/-- R116: the closed form of NRZI: the level of block `n` is the parity of the 1 bits up to bit `n`, and the final
latch is the parity of the whole sequence. -/
def Obligations.NrziIsParity : Prop :=
  ∀ (c : Config) (s : Block c), Startable s →
    exec .nrzi ⟨c, s⟩ = .next ⟨c, startedRun .nrzi s⟩ ∧
    (∀ n, n < s.len.toNat →
      levelAt (runTrace .nrzi s) (n * s.spb.toNat) =
        some (BitVec.ofNat 1 (onesBelow (seqBitAt s) (n + 1) % 2))) ∧
    (runEnd .nrzi s).block.level = BitVec.ofNat 1 (onesBelow (seqBitAt s) s.len.toNat % 2)

/-- R125, R126, R127, R128: the halves of a Manchester block: with `mid = (start + end) // 2`, the indices
`[start, mid)` carry the bit and `[mid, end)` its complement; the first half has `SPB // 2` samples. -/
def Obligations.ManchesterHalves : Prop :=
  ∀ (c : Config) (s : Block c), Startable s →
    exec .man ⟨c, s⟩ = .next ⟨c, startedRun .man s⟩ ∧
    ∀ n, n < s.len.toNat →
      let start := n * s.spb.toNat
      let stop := (n + 1) * s.spb.toNat
      let mid := (start + stop) / 2
      mid = start + s.spb.toNat / 2 ∧
      (∀ k, start ≤ k → k < mid → (runTrace .man s)[k]? = some (k, seqBitAt s n)) ∧
      ∀ k, mid ≤ k → k < stop → (runTrace .man s)[k]? = some (k, 1#1 - seqBitAt s n)

/-- R129: `MAN` with `SPB = 1` is accepted, emits the complement of the sequence, one sample a bit, ends in `DONE` and
raises nothing. -/
def Obligations.ManchesterUnitOversampling : Prop :=
  ∀ (c : Config) (s : Block c), Startable s → s.spb.toNat = 1 →
    exec .man ⟨c, s⟩ = .next ⟨c, startedRun .man s⟩ ∧ (midPhase s.spb).toNat = 0 ∧
    runTrace .man s = (List.range s.len.toNat).map (fun k => (k, 1#1 - seqBitAt s k)) ∧
    (runEnd .man s).block.phase = .done ∧ (runEnd .man s).block.errcause = 0b0000#4

/-- R132: the transitions of a Manchester trace: for `SPB >= 2` exactly one inside each block, at the midpoint, high to
low for a 1 and low to high for a 0, and one between blocks exactly when their bits are equal; for `SPB = 1` between
consecutive events exactly when the bits differ. -/
def Obligations.ManchesterTransitions : Prop :=
  ∀ (c : Config) (s : Block c), Startable s →
    exec .man ⟨c, s⟩ = .next ⟨c, startedRun .man s⟩ ∧
    (2 ≤ s.spb.toNat →
      (∀ n j, n < s.len.toNat → j + 1 < s.spb.toNat →
        (levelAt (runTrace .man s) (n * s.spb.toNat + j) ≠
            levelAt (runTrace .man s) (n * s.spb.toNat + j + 1) ↔ j + 1 = s.spb.toNat / 2)) ∧
      (∀ n, n < s.len.toNat →
        levelAt (runTrace .man s) (n * s.spb.toNat + s.spb.toNat / 2 - 1) = some (seqBitAt s n) ∧
        levelAt (runTrace .man s) (n * s.spb.toNat + s.spb.toNat / 2) = some (1#1 - seqBitAt s n)) ∧
      ∀ n, n + 1 < s.len.toNat →
        levelAt (runTrace .man s) ((n + 1) * s.spb.toNat - 1) = some (1#1 - seqBitAt s n) ∧
        levelAt (runTrace .man s) ((n + 1) * s.spb.toNat) = some (seqBitAt s (n + 1)) ∧
        (levelAt (runTrace .man s) ((n + 1) * s.spb.toNat - 1) ≠
            levelAt (runTrace .man s) ((n + 1) * s.spb.toNat) ↔ seqBitAt s n = seqBitAt s (n + 1))) ∧
    (s.spb.toNat = 1 → ∀ n, n + 1 < s.len.toNat →
      (levelAt (runTrace .man s) n ≠ levelAt (runTrace .man s) (n + 1) ↔
        seqBitAt s n ≠ seqBitAt s (n + 1)))

/-- R134: the count of events at level 1 in an accepted `MAN` run. -/
def Obligations.ManchesterCounts : Prop :=
  ∀ (c : Config) (s : Block c), Startable s →
    exec .man ⟨c, s⟩ = .next ⟨c, startedRun .man s⟩ ∧
    (runTrace .man s).countP (fun e => decide (e.2 = 1#1)) =
      onesBelow (seqBitAt s) s.len.toNat * (s.spb.toNat / 2) +
        (s.len.toNat - onesBelow (seqBitAt s) s.len.toNat) * (s.spb.toNat - s.spb.toNat / 2) ∧
    (s.spb.toNat % 2 = 0 →
      (runTrace .man s).countP (fun e => decide (e.2 = 1#1)) = s.len.toNat * s.spb.toNat / 2)

/-- R84: the time axis of an accepted run, for every operation: (a) `LEN * SPB` entries, (b) the first is 0, (c)
strictly increasing with the constant step `T / S`, (d) non-negative, (e) bit `n` begins at `n * T`, all
entries are below `N * T` and the last is `N * T - T / S`, (f) it does not depend on the operation or on the bit values. -/
def Obligations.TimeAxisProperties : Prop :=
  ∀ (i : Instr) (c : Config) (s : Block c), Startable s →
    exec i ⟨c, s⟩ = .next ⟨c, startedRun i s⟩ ∧
    (runTrace i s).map Prod.fst = List.range (s.len.toNat * s.spb.toNat) ∧
    (∀ n k, timeAt (stateAfter n ⟨c, startedRun i s⟩).block k = timeAt s k) ∧
    timeAt s 0 = 0 ∧
    (∀ k, timeAt s (k + 1) - timeAt s k = bitDuration s / (s.spb.toNat : ℚ)) ∧
    0 < bitDuration s / (s.spb.toNat : ℚ) ∧
    (∀ k, 0 ≤ timeAt s k) ∧
    (∀ n, timeAt s (n * s.spb.toNat) = (n : ℚ) * bitDuration s) ∧
    (∀ k, k < runLength s → timeAt s k < (s.len.toNat : ℚ) * bitDuration s) ∧
    (∀ s' : Block c, s'.spb = s.spb → s'.bitdur = s.bitdur → ∀ k, timeAt s' k = timeAt s k) ∧
    timeAt s (runLength s - 1) =
      (s.len.toNat : ℚ) * bitDuration s - bitDuration s / (s.spb.toNat : ℚ)

/-- R91: with `LEN = 1` a run of any operation is exactly one block: `SPB` events, `k = 0 .. SPB-1`, and `I = 1` at the
end. -/
def Obligations.LengthOneIsOneBlock : Prop :=
  ∀ (i : Instr) (c : Config) (s : Block c), Startable s → s.len.toNat = 1 →
    exec i ⟨c, s⟩ = .next ⟨c, startedRun i s⟩ ∧ (runTrace i s).length = s.spb.toNat ∧
    (runTrace i s).map Prod.fst = List.range s.spb.toNat ∧
    (∀ k, k < s.spb.toNat → levelAt (runTrace i s) k =
      some (if i = .man ∧ s.spb.toNat / 2 ≤ k then 1#1 - seqBitAt s 0 else seqBitAt s 0)) ∧
    (runEnd i s).block.i.toNat = 1

/-- R178, R183: splitting a sequence into two runs is transparent for GEN, NRZL and MAN, once the second run's indices
are offset by the first run's count; for NRZI the second run starts again from level 0, so its levels differ from
those of one run by the latch the first run left. -/
def Obligations.SplitSequence : Prop :=
  ∀ (i : Instr) (c : Config) (s s₁ s₂ : Block c), Startable s → Startable s₁ → Startable s₂ →
    s₁.spb = s.spb → s₂.spb = s.spb → s.len.toNat = s₁.len.toNat + s₂.len.toNat →
    (∀ n, n < s₁.len.toNat → cellAt s₁ n = cellAt s n) →
    (∀ n, n < s₂.len.toNat → cellAt s₂ n = cellAt s (s₁.len.toNat + n)) →
    runTrace i s = runTrace i s₁ ++
      (runTrace i s₂).map (fun e => (runLength s₁ + e.1,
        if i = .nrzi then (runEnd .nrzi s₁).block.level ^^^ e.2 else e.2))

/-! ### The script notation -/

/-- R67: `LOAD` outside `RUN` leaves the listed elements in the cells from 0 on and their number in `LEN`, and changes
nothing else. -/
def Obligations.LoadWritesSequence : Prop :=
  ∀ (c : Config) (s : Block c) (bits : List (BitVec c.symw)) (rest : List (HostMove c)),
    s.phase ≠ .run → Stmt.wellFormed (.load bits : Stmt c) = true →
    s.inbox = stmtMoves (.load bits) ++ rest →
    ∃ m : Memory c.symw,
      let t : Block c := { s with
        seq := m
        len := BitVec.ofNat c.aw bits.length
        inbox := rest
        out := none
        reply := none
        draws := s.draws + (bits.length + 1) }
      stateAfter (bits.length + 1) ⟨c, s⟩ = ⟨c, t⟩ ∧ t.len.toNat = bits.length ∧
        ∀ n, cellAt t n = (bits[n]?).getD (cellAt s n)

/-- R67: `WAIT` lets the sequencer step until `PHASE` is not `RUN` and is done with the next step; when `PHASE` is not
`RUN` already, it does nothing. -/
def Obligations.WaitRunsToTheEnd : Prop :=
  ∀ (c : Config) (s : Block c) (rest : List (HostMove c)), RunInvariant s → s.inbox = .wait :: rest →
    (s.phase ≠ .run →
      step ⟨c, s⟩ = .next ⟨c, taken s rest⟩) ∧
    (s.phase = .run →
      (∀ n, n < runLength s - s.k.toNat → ∃ u : Block c, stateAfter n ⟨c, s⟩ = ⟨c, u⟩ ∧
        u.phase = .run ∧ u.inbox = .wait :: rest) ∧
      (∃ u : Block c, stateAfter (runLength s - s.k.toNat) ⟨c, s⟩ = ⟨c, u⟩ ∧ u.phase = .done ∧
        u.inbox = .wait :: rest) ∧
      ∃ u : Block c, stateAfter (runLength s - s.k.toNat + 1) ⟨c, s⟩ = ⟨c, u⟩ ∧ u.phase = .done ∧
        u.inbox = rest)
end

