-- ==== Sys2Proof/Laws/State.lean ====
section
/-! SUPPORT. One lemma per field per update of the state, true by rfl, so that no proof unfolds an update. -/

namespace Sys2Proof.Machine

section Advance
variable {c : Config} (s : Block c) (rest : List (HostMove c))

@[simp] theorem advance_spb : (advance s rest).spb = s.spb := rfl
@[simp] theorem advance_bitdur : (advance s rest).bitdur = s.bitdur := rfl
@[simp] theorem advance_len : (advance s rest).len = s.len := rfl
@[simp] theorem advance_seq : (advance s rest).seq = s.seq := rfl
@[simp] theorem advance_op : (advance s rest).op = s.op := rfl
@[simp] theorem advance_phase : (advance s rest).phase = s.phase := rfl
@[simp] theorem advance_errcause : (advance s rest).errcause = s.errcause := rfl
@[simp] theorem advance_i : (advance s rest).i = s.i := rfl
@[simp] theorem advance_j : (advance s rest).j = s.j := rfl
@[simp] theorem advance_k : (advance s rest).k = s.k := rfl
@[simp] theorem advance_level : (advance s rest).level = s.level := rfl
@[simp] theorem advance_out : (advance s rest).out = none := rfl
@[simp] theorem advance_reply : (advance s rest).reply = none := rfl
@[simp] theorem advance_inbox : (advance s rest).inbox = rest := rfl
@[simp] theorem advance_draws : (advance s rest).draws = s.draws + 1 := rfl
@[simp] theorem advance_seqDraw : (advance s rest).seqDraw = s.seqDraw := rfl

end Advance

section SetPos
variable {c : Config} (s : Block c) (i : BitVec c.aw) (j : BitVec c.sw) (k : BitVec c.kw)

@[simp] theorem setPos_spb : (setPos s i j k).spb = s.spb := rfl
@[simp] theorem setPos_bitdur : (setPos s i j k).bitdur = s.bitdur := rfl
@[simp] theorem setPos_len : (setPos s i j k).len = s.len := rfl
@[simp] theorem setPos_seq : (setPos s i j k).seq = s.seq := rfl
@[simp] theorem setPos_op : (setPos s i j k).op = s.op := rfl
@[simp] theorem setPos_phase : (setPos s i j k).phase = s.phase := rfl
@[simp] theorem setPos_errcause : (setPos s i j k).errcause = s.errcause := rfl
@[simp] theorem setPos_i : (setPos s i j k).i = i := rfl
@[simp] theorem setPos_j : (setPos s i j k).j = j := rfl
@[simp] theorem setPos_k : (setPos s i j k).k = k := rfl
@[simp] theorem setPos_level : (setPos s i j k).level = s.level := rfl
@[simp] theorem setPos_out : (setPos s i j k).out = s.out := rfl
@[simp] theorem setPos_reply : (setPos s i j k).reply = s.reply := rfl
@[simp] theorem setPos_inbox : (setPos s i j k).inbox = s.inbox := rfl
@[simp] theorem setPos_draws : (setPos s i j k).draws = s.draws := rfl
@[simp] theorem setPos_seqDraw : (setPos s i j k).seqDraw = s.seqDraw := rfl

end SetPos

section Emit
variable {c : Config} (s : Block c) (k : BitVec c.kw) (l : Bit)

@[simp] theorem emit_spb : (emit s k l).spb = s.spb := rfl
@[simp] theorem emit_bitdur : (emit s k l).bitdur = s.bitdur := rfl
@[simp] theorem emit_len : (emit s k l).len = s.len := rfl
@[simp] theorem emit_seq : (emit s k l).seq = s.seq := rfl
@[simp] theorem emit_op : (emit s k l).op = s.op := rfl
@[simp] theorem emit_phase : (emit s k l).phase = s.phase := rfl
@[simp] theorem emit_errcause : (emit s k l).errcause = s.errcause := rfl
@[simp] theorem emit_i : (emit s k l).i = s.i := rfl
@[simp] theorem emit_j : (emit s k l).j = s.j := rfl
@[simp] theorem emit_k : (emit s k l).k = s.k := rfl
@[simp] theorem emit_level : (emit s k l).level = s.level := rfl
@[simp] theorem emit_out : (emit s k l).out = some ⟨k, l⟩ := rfl
@[simp] theorem emit_reply : (emit s k l).reply = s.reply := rfl
@[simp] theorem emit_inbox : (emit s k l).inbox = s.inbox := rfl
@[simp] theorem emit_draws : (emit s k l).draws = s.draws := rfl
@[simp] theorem emit_seqDraw : (emit s k l).seqDraw = s.seqDraw := rfl

end Emit

section MemWrite
variable {c : Config} (s : Block c) (idx : BitVec c.aw) (sym : BitVec c.symw)

@[simp] theorem memWrite_spb : (memWrite s idx sym).spb = s.spb := rfl
@[simp] theorem memWrite_bitdur : (memWrite s idx sym).bitdur = s.bitdur := rfl
@[simp] theorem memWrite_len : (memWrite s idx sym).len = s.len := rfl
@[simp] theorem memWrite_seq : (memWrite s idx sym).seq = Memory.insert s.seq idx.toNat sym := rfl
@[simp] theorem memWrite_op : (memWrite s idx sym).op = s.op := rfl
@[simp] theorem memWrite_phase : (memWrite s idx sym).phase = s.phase := rfl
@[simp] theorem memWrite_errcause : (memWrite s idx sym).errcause = s.errcause := rfl
@[simp] theorem memWrite_i : (memWrite s idx sym).i = s.i := rfl
@[simp] theorem memWrite_j : (memWrite s idx sym).j = s.j := rfl
@[simp] theorem memWrite_k : (memWrite s idx sym).k = s.k := rfl
@[simp] theorem memWrite_level : (memWrite s idx sym).level = s.level := rfl
@[simp] theorem memWrite_out : (memWrite s idx sym).out = s.out := rfl
@[simp] theorem memWrite_reply : (memWrite s idx sym).reply = s.reply := rfl
@[simp] theorem memWrite_inbox : (memWrite s idx sym).inbox = s.inbox := rfl
@[simp] theorem memWrite_draws : (memWrite s idx sym).draws = s.draws := rfl
@[simp] theorem memWrite_seqDraw : (memWrite s idx sym).seqDraw = s.seqDraw := rfl

end MemWrite

section RaiseInvalidInput
variable {c : Config} (s : Block c) (e : CauseMask)

@[simp] theorem raiseInvalidInput_spb : (raiseInvalidInput s e).spb = s.spb := rfl
@[simp] theorem raiseInvalidInput_bitdur : (raiseInvalidInput s e).bitdur = s.bitdur := rfl
@[simp] theorem raiseInvalidInput_len : (raiseInvalidInput s e).len = s.len := rfl
@[simp] theorem raiseInvalidInput_seq : (raiseInvalidInput s e).seq = s.seq := rfl
@[simp] theorem raiseInvalidInput_op : (raiseInvalidInput s e).op = s.op := rfl
@[simp] theorem raiseInvalidInput_phase : (raiseInvalidInput s e).phase = .err := rfl
@[simp] theorem raiseInvalidInput_errcause : (raiseInvalidInput s e).errcause = e := rfl
@[simp] theorem raiseInvalidInput_i : (raiseInvalidInput s e).i = s.i := rfl
@[simp] theorem raiseInvalidInput_j : (raiseInvalidInput s e).j = s.j := rfl
@[simp] theorem raiseInvalidInput_k : (raiseInvalidInput s e).k = s.k := rfl
@[simp] theorem raiseInvalidInput_level : (raiseInvalidInput s e).level = s.level := rfl
@[simp] theorem raiseInvalidInput_out : (raiseInvalidInput s e).out = s.out := rfl
@[simp] theorem raiseInvalidInput_reply : (raiseInvalidInput s e).reply = s.reply := rfl
@[simp] theorem raiseInvalidInput_inbox : (raiseInvalidInput s e).inbox = s.inbox := rfl
@[simp] theorem raiseInvalidInput_draws : (raiseInvalidInput s e).draws = s.draws := rfl
@[simp] theorem raiseInvalidInput_seqDraw : (raiseInvalidInput s e).seqDraw = s.seqDraw := rfl

end RaiseInvalidInput

section AcceptInput
variable {c : Config} (s : Block c)

@[simp] theorem acceptInput_spb : (acceptInput s).spb = s.spb := rfl
@[simp] theorem acceptInput_bitdur : (acceptInput s).bitdur = s.bitdur := rfl
@[simp] theorem acceptInput_len : (acceptInput s).len = s.len := rfl
@[simp] theorem acceptInput_seq : (acceptInput s).seq = s.seq := rfl
@[simp] theorem acceptInput_op : (acceptInput s).op = s.op := rfl
@[simp] theorem acceptInput_phase : (acceptInput s).phase = .run := rfl
@[simp] theorem acceptInput_errcause : (acceptInput s).errcause = 0#4 := rfl
@[simp] theorem acceptInput_i : (acceptInput s).i = s.i := rfl
@[simp] theorem acceptInput_j : (acceptInput s).j = s.j := rfl
@[simp] theorem acceptInput_k : (acceptInput s).k = s.k := rfl
@[simp] theorem acceptInput_level : (acceptInput s).level = s.level := rfl
@[simp] theorem acceptInput_out : (acceptInput s).out = s.out := rfl
@[simp] theorem acceptInput_reply : (acceptInput s).reply = s.reply := rfl
@[simp] theorem acceptInput_inbox : (acceptInput s).inbox = s.inbox := rfl
@[simp] theorem acceptInput_draws : (acceptInput s).draws = s.draws := rfl
@[simp] theorem acceptInput_seqDraw : (acceptInput s).seqDraw = s.seqDraw := rfl

end AcceptInput

section Answer
variable {c : Config} (s : Block c) (r : Reply)

@[simp] theorem answer_spb : (answer s r).spb = s.spb := rfl
@[simp] theorem answer_bitdur : (answer s r).bitdur = s.bitdur := rfl
@[simp] theorem answer_len : (answer s r).len = s.len := rfl
@[simp] theorem answer_seq : (answer s r).seq = s.seq := rfl
@[simp] theorem answer_op : (answer s r).op = s.op := rfl
@[simp] theorem answer_phase : (answer s r).phase = s.phase := rfl
@[simp] theorem answer_errcause : (answer s r).errcause = s.errcause := rfl
@[simp] theorem answer_i : (answer s r).i = s.i := rfl
@[simp] theorem answer_j : (answer s r).j = s.j := rfl
@[simp] theorem answer_k : (answer s r).k = s.k := rfl
@[simp] theorem answer_level : (answer s r).level = s.level := rfl
@[simp] theorem answer_out : (answer s r).out = s.out := rfl
@[simp] theorem answer_reply : (answer s r).reply = some r := rfl
@[simp] theorem answer_inbox : (answer s r).inbox = s.inbox := rfl
@[simp] theorem answer_draws : (answer s r).draws = s.draws := rfl
@[simp] theorem answer_seqDraw : (answer s r).seqDraw = s.seqDraw := rfl

end Answer

section KeepWaiting
variable {c : Config} (s : Block c)

@[simp] theorem keepWaiting_spb : (keepWaiting s).spb = s.spb := rfl
@[simp] theorem keepWaiting_bitdur : (keepWaiting s).bitdur = s.bitdur := rfl
@[simp] theorem keepWaiting_len : (keepWaiting s).len = s.len := rfl
@[simp] theorem keepWaiting_seq : (keepWaiting s).seq = s.seq := rfl
@[simp] theorem keepWaiting_op : (keepWaiting s).op = s.op := rfl
@[simp] theorem keepWaiting_phase : (keepWaiting s).phase = s.phase := rfl
@[simp] theorem keepWaiting_errcause : (keepWaiting s).errcause = s.errcause := rfl
@[simp] theorem keepWaiting_i : (keepWaiting s).i = s.i := rfl
@[simp] theorem keepWaiting_j : (keepWaiting s).j = s.j := rfl
@[simp] theorem keepWaiting_k : (keepWaiting s).k = s.k := rfl
@[simp] theorem keepWaiting_level : (keepWaiting s).level = s.level := rfl
@[simp] theorem keepWaiting_out : (keepWaiting s).out = s.out := rfl
@[simp] theorem keepWaiting_reply : (keepWaiting s).reply = s.reply := rfl
@[simp] theorem keepWaiting_inbox : (keepWaiting s).inbox = .wait :: s.inbox := rfl
@[simp] theorem keepWaiting_draws : (keepWaiting s).draws = s.draws := rfl
@[simp] theorem keepWaiting_seqDraw : (keepWaiting s).seqDraw = s.seqDraw := rfl

end KeepWaiting

section BeginRun
variable {c : Config} (s : Block c) (w : CmdWord)

@[simp] theorem beginRun_spb : (beginRun s w).spb = s.spb := rfl
@[simp] theorem beginRun_bitdur : (beginRun s w).bitdur = s.bitdur := rfl
@[simp] theorem beginRun_len : (beginRun s w).len = s.len := rfl
@[simp] theorem beginRun_seq : (beginRun s w).seq = s.seq := rfl
@[simp] theorem beginRun_op : (beginRun s w).op = w := rfl
@[simp] theorem beginRun_phase : (beginRun s w).phase = s.phase := rfl
@[simp] theorem beginRun_errcause : (beginRun s w).errcause = s.errcause := rfl
@[simp] theorem beginRun_i : (beginRun s w).i = BitVec.ofNat c.aw 0 := rfl
@[simp] theorem beginRun_j : (beginRun s w).j = BitVec.ofNat c.sw 0 := rfl
@[simp] theorem beginRun_k : (beginRun s w).k = BitVec.ofNat c.kw 0 := rfl
@[simp] theorem beginRun_level : (beginRun s w).level = 0#1 := rfl
@[simp] theorem beginRun_out : (beginRun s w).out = s.out := rfl
@[simp] theorem beginRun_reply : (beginRun s w).reply = s.reply := rfl
@[simp] theorem beginRun_inbox : (beginRun s w).inbox = s.inbox := rfl
@[simp] theorem beginRun_draws : (beginRun s w).draws = s.draws := rfl
@[simp] theorem beginRun_seqDraw : (beginRun s w).seqDraw = s.seqDraw := rfl

end BeginRun

section PowerOn
variable (c : Config) (d : Nat) (ms : List (HostMove c))

@[simp] theorem powerOn_spb : (Block.powerOn c d ms).spb = BitVec.ofNat c.sw Config.spbReset := rfl
@[simp] theorem powerOn_bitdur : (Block.powerOn c d ms).bitdur = BitVec.ofNat c.tw 1 := rfl
@[simp] theorem powerOn_len : (Block.powerOn c d ms).len = BitVec.ofNat c.aw 0 := rfl
@[simp] theorem powerOn_seq : (Block.powerOn c d ms).seq = [] := rfl
@[simp] theorem powerOn_op : (Block.powerOn c d ms).op = 0#2 := rfl
@[simp] theorem powerOn_phase : (Block.powerOn c d ms).phase = .idle := rfl
@[simp] theorem powerOn_errcause : (Block.powerOn c d ms).errcause = 0#4 := rfl
@[simp] theorem powerOn_i : (Block.powerOn c d ms).i = BitVec.ofNat c.aw 0 := rfl
@[simp] theorem powerOn_j : (Block.powerOn c d ms).j = BitVec.ofNat c.sw 0 := rfl
@[simp] theorem powerOn_k : (Block.powerOn c d ms).k = BitVec.ofNat c.kw 0 := rfl
@[simp] theorem powerOn_level : (Block.powerOn c d ms).level = 0#1 := rfl
@[simp] theorem powerOn_out : (Block.powerOn c d ms).out = none := rfl
@[simp] theorem powerOn_reply : (Block.powerOn c d ms).reply = none := rfl
@[simp] theorem powerOn_inbox : (Block.powerOn c d ms).inbox = ms := rfl
@[simp] theorem powerOn_draws : (Block.powerOn c d ms).draws = d := rfl
@[simp] theorem powerOn_seqDraw : (Block.powerOn c d ms).seqDraw = d := rfl

end PowerOn

end Sys2Proof.Machine
end

