-- ==== Sys2Proof/Laws/Memory.lean ====
section
/-! SUPPORT. The laws of the sequence buffer: a read after a write, a write keeps the canonical form, and which
updates leave a cell's content alone. -/

namespace Sys2Proof.Machine

theorem lookup_insert_same {w : Nat} (m : Memory w) (n : Nat) (v : BitVec w) :
    (Memory.insert m n v).lookup n = some v := by
  induction m with
  | nil => simp [Memory.insert, Memory.lookup]
  | cons e m ih =>
    obtain ⟨a, u⟩ := e
    unfold Memory.insert
    split
    · simp [Memory.lookup]
    · split
      · simp [Memory.lookup]
      · rename_i h₁ h₂
        simp [Memory.lookup, ih, Ne.symm h₂]

theorem lookup_insert_other {w : Nat} (m : Memory w) {n x : Nat} (v : BitVec w) (h : x ≠ n) :
    (Memory.insert m n v).lookup x = m.lookup x := by
  induction m with
  | nil => simp [Memory.insert, Memory.lookup, Ne.symm h]
  | cons e m ih =>
    obtain ⟨a, u⟩ := e
    unfold Memory.insert
    split
    · simp [Memory.lookup, Ne.symm h]
    · split
      · rename_i h₁ h₂
        subst h₂
        simp [Memory.lookup, Ne.symm h]
      · simp [Memory.lookup, ih]

theorem risingFrom_insert {w : Nat} (m : Memory w) (lo n : Nat) (v : BitVec w) (hlo : lo ≤ n)
    (h : Memory.risingFrom lo m = true) : Memory.risingFrom lo (Memory.insert m n v) = true := by
  induction m generalizing lo with
  | nil => simp [Memory.insert, Memory.risingFrom, hlo]
  | cons e m ih =>
    obtain ⟨a, u⟩ := e
    simp only [Memory.risingFrom, Bool.and_eq_true, decide_eq_true_eq] at h
    unfold Memory.insert
    split
    · simp only [Memory.risingFrom, Bool.and_eq_true, decide_eq_true_eq]
      exact ⟨hlo, by omega, h.2⟩
    · split
      · rename_i h₁ h₂
        subst h₂
        simp only [Memory.risingFrom, Bool.and_eq_true, decide_eq_true_eq]
        exact ⟨hlo, h.2⟩
      · simp only [Memory.risingFrom, Bool.and_eq_true, decide_eq_true_eq]
        exact ⟨h.1, ih (a + 1) (by omega) h.2⟩

theorem mem_insert {w : Nat} (m : Memory w) (n : Nat) (v : BitVec w) (e : Nat × BitVec w)
    (h : e ∈ Memory.insert m n v) : e = (n, v) ∨ e ∈ m := by
  induction m with
  | nil => simpa [Memory.insert] using h
  | cons x m ih =>
    obtain ⟨a, u⟩ := x
    unfold Memory.insert at h
    split at h
    · simpa using h
    · split at h
      · rcases List.mem_cons.1 h with h | h
        · exact .inl h
        · exact .inr (List.mem_cons_of_mem _ h)
      · rcases List.mem_cons.1 h with h | h
        · exact .inr (h ▸ List.mem_cons_self)
        · exact (ih h).imp id (List.mem_cons_of_mem _)

theorem wf_nil {w : Nat} (aw : Nat) : Memory.wf aw ([] : Memory w) = true := rfl

/-- A write keeps the canonical form. -/
theorem wf_insert {w : Nat} (aw : Nat) (m : Memory w) (n : Nat) (v : BitVec w) (hn : n < 2 ^ aw)
    (h : Memory.wf aw m = true) : Memory.wf aw (Memory.insert m n v) = true := by
  simp only [Memory.wf, Bool.and_eq_true, List.all_eq_true, decide_eq_true_eq] at h ⊢
  refine ⟨risingFrom_insert m 0 n v (Nat.zero_le _) h.1, fun e he => ?_⟩
  rcases mem_insert m n v e he with rfl | he
  · exact hn
  · exact h.2 e he

/-- The block's one memory operation keeps the canonical form. -/
theorem wf_memWrite {c : Config} (s : Block c) (idx : BitVec c.aw) (sym : BitVec c.symw)
    (h : Memory.wf c.aw s.seq = true) : Memory.wf c.aw (memWrite s idx sym).seq = true :=
  wf_insert c.aw s.seq idx.toNat sym idx.isLt h

/-- No entry stands below the bound its list rises from. -/
theorem lookup_below {w : Nat} (m : Memory w) (lo n : Nat) (h : Memory.risingFrom lo m = true)
    (hn : n < lo) : m.lookup n = none := by
  induction m generalizing lo with
  | nil => rfl
  | cons e m ih =>
    obtain ⟨a, u⟩ := e
    simp only [Memory.risingFrom, Bool.and_eq_true, decide_eq_true_eq] at h
    simp [Memory.lookup, show a ≠ n by omega, ih (a + 1) h.2 (by omega)]

/-- Two memories in canonical form that read alike at every index, written or not, are equal data. -/
theorem memory_ext {w : Nat} (m m' : Memory w) (lo : Nat) (h : Memory.risingFrom lo m = true)
    (h' : Memory.risingFrom lo m' = true) (heq : ∀ n, m.lookup n = m'.lookup n) : m = m' := by
  induction m generalizing lo m' with
  | nil =>
    cases m' with
    | nil => rfl
    | cons e m' => simpa [Memory.lookup] using heq e.1
  | cons e m ih =>
    obtain ⟨a, u⟩ := e
    simp only [Memory.risingFrom, Bool.and_eq_true, decide_eq_true_eq] at h
    cases m' with
    | nil => simpa [Memory.lookup] using heq a
    | cons e' m' =>
      obtain ⟨b, v⟩ := e'
      simp only [Memory.risingFrom, Bool.and_eq_true, decide_eq_true_eq] at h'
      have hab : a = b := by
        rcases Nat.lt_trichotomy a b with hlt | heq' | hlt
        · have := heq a
          simp [Memory.lookup, show b ≠ a by omega, lookup_below m' (b + 1) a h'.2 (by omega)] at this
        · exact heq'
        · have := heq b
          simp [Memory.lookup, show a ≠ b by omega, lookup_below m (a + 1) b h.2 (by omega)] at this
      subst hab
      have huv : u = v := by simpa [Memory.lookup] using heq a
      subst huv
      have : m = m' := by
        refine ih m' (a + 1) h.2 h'.2 fun n => ?_
        by_cases hn : a = n
        · subst hn
          rw [lookup_below m (a + 1) a h.2 (by omega), lookup_below m' (a + 1) a h'.2 (by omega)]
        · simpa [Memory.lookup, hn] using heq n
      rw [this]

@[simp] theorem cellAt_advance {c : Config} (s : Block c) (rest : List (HostMove c)) (n : Nat) :
    cellAt (advance s rest) n = cellAt s n := rfl
@[simp] theorem cellAt_beginRun {c : Config} (s : Block c) (w : CmdWord) (n : Nat) :
    cellAt (beginRun s w) n = cellAt s n := rfl
@[simp] theorem cellAt_emit {c : Config} (s : Block c) (k : BitVec c.kw) (l : Bit) (n : Nat) :
    cellAt (emit s k l) n = cellAt s n := rfl
@[simp] theorem cellAt_setPos {c : Config} (s : Block c) (i : BitVec c.aw) (j : BitVec c.sw)
    (k : BitVec c.kw) (n : Nat) : cellAt (setPos s i j k) n = cellAt s n := rfl
@[simp] theorem cellAt_acceptInput {c : Config} (s : Block c) (n : Nat) :
    cellAt (acceptInput s) n = cellAt s n := rfl
@[simp] theorem cellAt_raiseInvalidInput {c : Config} (s : Block c) (e : CauseMask) (n : Nat) :
    cellAt (raiseInvalidInput s e) n = cellAt s n := rfl
@[simp] theorem cellAt_answer {c : Config} (s : Block c) (r : Reply) (n : Nat) :
    cellAt (answer s r) n = cellAt s n := rfl
@[simp] theorem cellAt_keepWaiting {c : Config} (s : Block c) (n : Nat) :
    cellAt (keepWaiting s) n = cellAt s n := rfl

/-- A cell reads back what was written to it. -/
theorem cellAt_memWrite_same {c : Config} (s : Block c) (idx : BitVec c.aw) (sym : BitVec c.symw) :
    cellAt (memWrite s idx sym) idx.toNat = sym := by
  simp [cellAt, lookup_insert_same]

/-- A write leaves every other cell alone. -/
theorem cellAt_memWrite_other {c : Config} (s : Block c) (idx : BitVec c.aw) (sym : BitVec c.symw) {n : Nat}
    (h : n ≠ idx.toNat) : cellAt (memWrite s idx sym) n = cellAt s n := by
  simp [cellAt, lookup_insert_other _ _ h]

/-- The contents that a cell can be told apart by are bits where the cell is binary. -/
theorem seqBitAt_toNat {c : Config} (s : Block c) (n : Nat) (h : (cellAt s n).toNat < 2) :
    (seqBitAt s n).toNat = (cellAt s n).toNat := by
  simp [seqBitAt]
  omega

end Sys2Proof.Machine
end

