-- ==== Sys2Proof/Laws/PerInstr.lean ====
section
/-! SUPPORT. The per-instruction family `TableWord`: the command word of an operation is a table word, in whole bytes,
that the table decoder reads back. -/

namespace Sys2Proof.Laws.TableWord

/-- The word of `i`, laid out in a byte as the opcode table counts bits, is read back as `i`, and so it is with any
number of leading zero bits. -/
def Statement (i : Instr) : Prop :=
  i.wellFormed = true ∧ ∀ nbits, 2 ≤ nbits → decodeTableWord nbits (encode i).toNat = some i

theorem encode_lt (i : Instr) {nbits : Nat} (h : 2 ≤ nbits) :
    (encode i).toNat % 2 ^ nbits = (encode i).toNat :=
  Nat.mod_eq_of_lt (lt_of_lt_of_le (encode i).isLt (Nat.pow_le_pow_right (by decide) h))

theorem gen : Statement .gen :=
  ⟨rfl, fun n h => by simp only [decodeTableWord, commandWord, encode_lt .gen h]; decide⟩

theorem nrzl : Statement .nrzl :=
  ⟨rfl, fun n h => by simp only [decodeTableWord, commandWord, encode_lt .nrzl h]; decide⟩

theorem nrzi : Statement .nrzi :=
  ⟨rfl, fun n h => by simp only [decodeTableWord, commandWord, encode_lt .nrzi h]; decide⟩

theorem man : Statement .man :=
  ⟨rfl, fun n h => by simp only [decodeTableWord, commandWord, encode_lt .man h]; decide⟩

end Sys2Proof.Laws.TableWord
end

