-- ==== Sys2Proof/Laws/Run.lean ====
section
/-! SUPPORT. What each shared operation of a run can do, said once: validation, the start step, a start command, the
sample step. -/

namespace Sys2Proof.Machine

theorem anyNonBinary_iff {c : Config} (s : Block c) (n : Nat) :
    anyNonBinary s n = true ↔ ∃ m, m < n ∧ 2 ≤ (cellAt s m).toNat := by
  induction n with
  | zero => simp [anyNonBinary]
  | succ n ih =>
    simp only [anyNonBinary, Bool.or_eq_true, ih, decide_eq_true_eq]
    constructor
    · rintro (⟨m, hm, h⟩ | h)
      · exact ⟨m, by omega, h⟩
      · exact ⟨n, by omega, h⟩
    · rintro ⟨m, hm, h⟩
      rcases Nat.lt_succ_iff_lt_or_eq.1 hm with hm | rfl
      · exact .inl ⟨m, hm, h⟩
      · exact .inr h

/-- The symbol check depends on the cells alone. -/
theorem anyNonBinary_congr {c : Config} (s t : Block c) (h : ∀ n, (cellAt s n).toNat = (cellAt t n).toNat) (n : Nat) :
    anyNonBinary s n = anyNonBinary t n := by
  induction n with
  | zero => rfl
  | succ n ih => simp only [anyNonBinary, ih, h]

/-- Validation passes exactly when no cause holds. -/
theorem validate_eq_zero_iff {c : Config} (s : Block c) :
    validate s = 0#4 ↔
      causeSpb s = false ∧ causeBitdur s = false ∧ causeSymbol s = false ∧ causeEmpty s = false := by
  unfold validate
  cases causeSpb s <;> cases causeBitdur s <;> cases causeSymbol s <;> cases causeEmpty s <;> decide

/-- The start step validates the state it found: it reads nothing that it writes first. -/
@[simp] theorem validate_beginRun {c : Config} (s : Block c) (w : CmdWord) : validate (beginRun s w) = validate s := by
  have h : causeSymbol (beginRun s w) = causeSymbol s :=
    anyNonBinary_congr (beginRun s w) s (fun _ => rfl) s.len.toNat
  simp only [validate, h]
  rfl

@[simp] theorem validate_advance {c : Config} (s : Block c) (rest : List (HostMove c)) :
    validate (advance s rest) = validate s := by
  have h : causeSymbol (advance s rest) = causeSymbol s :=
    anyNonBinary_congr (advance s rest) s (fun _ => rfl) s.len.toNat
  simp only [validate, h]
  rfl

/-- The start step as one update. -/
theorem startStep_eq {c : Config} (s : Block c) (w : CmdWord) :
    startStep s w = { s with
      op := w
      i := 0#c.aw
      j := 0#c.sw
      k := 0#c.kw
      level := 0#1
      errcause := validate s
      phase := if validate s = 0#4 then .run else .err } := by
  unfold startStep
  simp only [validate_beginRun]
  by_cases h : validate s = 0#4
  · simp only [h, if_true]
    rfl
  · simp only [h, if_false]
    rfl

theorem decode_encode (i : Instr) : decode (encode i) = i := by cases i <;> decide

theorem encode_decode (w : CmdWord) : encode (decode w) = w := by revert w; decide

/-- The effect of every operation is that of its start command. -/
theorem exec_eq (i : Instr) (s : State) :
    exec i s = .next ⟨s.cfg, issueCommand s.block (encode i)⟩ := by
  cases i <;> rfl

/-- A start command is ignored, accepted or rejected. -/
theorem issueCommand_cases {c : Config} (s : Block c) (w : CmdWord) :
    (s.phase = .run ∧ issueCommand s w = s) ∨
    (s.phase ≠ .run ∧ validate s = 0#4 ∧ issueCommand s w = acceptInput (beginRun s w)) ∨
    (s.phase ≠ .run ∧ validate s ≠ 0#4 ∧
      issueCommand s w = raiseInvalidInput (beginRun s w) (validate s)) := by
  by_cases hp : s.phase = .run
  · exact .inl ⟨hp, by simp [issueCommand, hp]⟩
  · by_cases hv : validate s = 0#4
    · exact .inr (.inl ⟨hp, hv, by simp [issueCommand, hp, startStep, hv]⟩)
    · exact .inr (.inr ⟨hp, hv, by simp [issueCommand, hp, startStep, hv]⟩)

/-- The advance of the position as one update. -/
theorem advancePos_eq {c : Config} (s : Block c) :
    advancePos s = { s with
      phase := if s.j = s.spb - 1#c.sw ∧ s.i = s.len - 1#c.aw then .done else s.phase
      i := if s.j = s.spb - 1#c.sw then s.i + 1#c.aw else s.i
      j := if s.j = s.spb - 1#c.sw then 0#c.sw else s.j + 1#c.sw
      k := s.k + 1#c.kw } := by
  unfold advancePos atBlockEnd atLastBit setPos
  by_cases hj : s.j = s.spb - 1#c.sw
  · by_cases hi : s.i = s.len - 1#c.aw
    · simp only [hj, hi, decide_true, if_true, and_self]
    · simp only [hj, hi, decide_true, decide_false, if_true, and_false, if_false, Bool.false_eq_true]
  · simp only [hj, decide_false, false_and, if_false, Bool.false_eq_true]

/-- The sample step as one update: every operation differs only in the latch and the level. -/
theorem sampleWith_eq {c : Config} (s : Block c) (latch l : Bit) :
    sampleWith s latch l = { s with
      level := latch
      out := some ⟨s.k, l⟩
      phase := if s.j = s.spb - 1#c.sw ∧ s.i = s.len - 1#c.aw then .done else s.phase
      i := if s.j = s.spb - 1#c.sw then s.i + 1#c.aw else s.i
      j := if s.j = s.spb - 1#c.sw then 0#c.sw else s.j + 1#c.sw
      k := s.k + 1#c.kw } := by
  unfold sampleWith
  rw [advancePos_eq]
  rfl

/-- The latch after a sample step (R81). -/
def latchNext {c : Config} (s : Block c) : Bit :=
  if decode s.op = .nrzi ∧ s.j = 0#c.sw then s.level ^^^ inputBit s else s.level

/-- The sample step is the shared skeleton with R81's latch and level. -/
theorem sampleStep_eq {c : Config} (s : Block c) :
    sampleStep s =
      sampleWith s (latchNext s) (lvl (decode s.op) (inputBit s) s.j s.spb (latchNext s)) := by
  unfold sampleStep latchNext
  cases h : decode s.op
  · rfl
  · rfl
  · simp [sampleNrzi, lvl, levelNrzi, latchNrzi]
  · rfl

end Sys2Proof.Machine
end

