-- ==== Sys2Proof/Laws/Step.lean ====
section
/-! SUPPORT. What a step can do, said once, on the block: `stepBlock` is the step with the outcome taken off, and
`step_eq` is the one lemma that relates them. -/

namespace Sys2Proof.Machine

/-- What one host move leaves. -/
def moveResult {c : Config} (s : Block c) (m : HostMove c) : Block c :=
  match m with
  | .regWrite .cmd w => issueCommand s w
  | .regWrite .status v => hostWrite s .status v
  | .regWrite .spb v => hostWrite s .spb v
  | .regWrite .bitdur v => hostWrite s .bitdur v
  | .regWrite .len v => hostWrite s .len v
  | .regWrite .count v => hostWrite s .count v
  | .regWrite .reserved6 v => hostWrite s .reserved6 v
  | .regWrite .reserved7 v => hostWrite s .reserved7 v
  | .regRead rn => hostRegRead s rn
  | .seqWrite idx sym => hostSeqWrite s idx sym
  | .seqRead idx => hostSeqRead s idx
  | .reset => resetBlock s
  | .wait => hostWait s
  | .skip => sequencerTurn s

/-- What one step leaves. -/
def stepBlock {c : Config} (s : Block c) : Block c :=
  match s.inbox with
  | [] => sequencerTurn (advance s [])
  | m :: rest => moveResult (advance s rest) m

/-- Every host move answers a next state. -/
theorem takeMove_eq {c : Config} (s : Block c) (m : HostMove c) :
    takeMove s m = .next ⟨c, moveResult s m⟩ := by
  cases m with
  | regWrite rn data => cases rn <;> simp [takeMove, hostRegWrite, moveResult, exec_eq, encode_decode]
  | _ => rfl

/-- Every step answers a next state: that of `stepBlock`, with the same parameters. -/
theorem step_eq (s : State) : step s = .next ⟨s.cfg, stepBlock s.block⟩ := by
  unfold step takeTurn stepBlock
  cases s.block.inbox with
  | nil => rfl
  | cons m rest => exact takeMove_eq _ _

/-- The inversion of a step. -/
theorem step_next_iff (s t : State) : step s = .next t ↔ t = ⟨s.cfg, stepBlock s.block⟩ := by
  rw [step_eq]
  exact ⟨fun h => by injection h with h; exact h.symm, fun h => by rw [h]⟩

/-- A step with no host move is a turn of the sequencer. -/
theorem stepBlock_nil {c : Config} (s : Block c) (h : s.inbox = []) :
    stepBlock s = sequencerTurn (advance s []) := by
  simp [stepBlock, h]

/-- A step with a host move is that move. -/
theorem stepBlock_cons {c : Config} (s : Block c) (m : HostMove c) (rest : List (HostMove c))
    (h : s.inbox = m :: rest) : stepBlock s = moveResult (advance s rest) m := by
  simp [stepBlock, h]

/-- The two cases of a step. -/
theorem stepBlock_cases {c : Config} (s : Block c) :
    (s.inbox = [] ∧ stepBlock s = sequencerTurn (advance s [])) ∨
    ∃ m rest, s.inbox = m :: rest ∧ stepBlock s = moveResult (advance s rest) m := by
  cases h : s.inbox with
  | nil => exact .inl ⟨rfl, stepBlock_nil s h⟩
  | cons m rest => exact .inr ⟨m, rest, rfl, stepBlock_cons s m rest h⟩

theorem sequencerTurn_run {c : Config} (s : Block c) (h : s.phase = .run) :
    sequencerTurn s = sampleStep s := if_pos h

theorem sequencerTurn_rest {c : Config} (s : Block c) (h : s.phase ≠ .run) :
    sequencerTurn s = s := if_neg h

theorem hostWrite_run {c : Config} (s : Block c) (rn : RegNum) (data : BitVec (rn.width c))
    (h : s.phase = .run) : hostWrite s rn data = s := if_pos h

theorem hostWrite_rest {c : Config} (s : Block c) (rn : RegNum) (data : BitVec (rn.width c))
    (h : s.phase ≠ .run) : hostWrite s rn data = writeRegister s rn data := if_neg h

/-- Everything a step from `s` can leave: the inversion of a step, with the host's move and the phase it needs. -/
inductive StepKind {c : Config} (s : Block c) : Block c → Prop where
  /-- A start command outside `RUN`. -/
  | start (w : CmdWord) (rest : List (HostMove c)) (hin : s.inbox = .regWrite .cmd w :: rest)
      (hp : s.phase ≠ .run) : StepKind s (startStep (advance s rest) w)
  /-- A write outside `RUN` to a register other than `CMD`. -/
  | write (rn : RegNum) (data : BitVec (rn.width c)) (rest : List (HostMove c)) (hrn : rn ≠ .cmd)
      (hin : s.inbox = .regWrite rn data :: rest) (hp : s.phase ≠ .run) :
      StepKind s (writeRegister (advance s rest) rn data)
  /-- A cell write outside `RUN`. -/
  | cell (idx : BitVec c.aw) (sym : BitVec c.symw) (rest : List (HostMove c))
      (hin : s.inbox = .seqWrite idx sym :: rest) (hp : s.phase ≠ .run) :
      StepKind s (memWrite (advance s rest) idx sym)
  /-- The reset input. -/
  | reset (rest : List (HostMove c)) (hin : s.inbox = .reset :: rest) :
      StepKind s (Block.powerOn c (s.draws + 1) rest)
  /-- A sample step, in the sequencer's turn or while the host waits. -/
  | sample (rest : List (HostMove c)) (hp : s.phase = .run) (hr : ∀ r, s.inbox ≠ .reset :: r) :
      StepKind s (sampleStep (advance s rest))
  /-- Nothing: a read, a lost write or command, an idle turn. -/
  | quiet (rest : List (HostMove c)) (r : Option Reply) (hr : ∀ r, s.inbox ≠ .reset :: r)
      (hc : s.phase = .run ∨ ∀ w rest, s.inbox ≠ .regWrite .cmd w :: rest) :
      StepKind s { advance s rest with reply := r }

theorem stepBlock_kind {c : Config} (s : Block c) : StepKind s (stepBlock s) := by
  rcases stepBlock_cases s with ⟨hin, e⟩ | ⟨m, rest, hin, e⟩ <;> rw [e]
  · by_cases hp : s.phase = .run
    · rw [sequencerTurn_run _ (by exact hp)]; exact .sample _ hp (by simp [hin])
    · rw [sequencerTurn_rest _ (by exact hp)]; exact .quiet [] none (by simp [hin]) (.inr (by simp [hin]))
  · have quiet : ∀ (r : Option Reply), m ≠ .reset → (s.phase = .run ∨ ∀ w, m ≠ .regWrite .cmd w) →
        StepKind s { advance s rest with reply := r } := fun r hm hc =>
      .quiet rest r (by simp [hin, hm]) (hc.imp id fun h w r => by rw [hin]; simp [h w])
    have hpos := @if_pos ((advance s rest).phase = .run) inferInstance
    have hneg := @if_neg ((advance s rest).phase = .run) inferInstance
    by_cases hp : s.phase = .run
    · cases m with
      | regWrite rn data =>
        have : moveResult (advance s rest) (.regWrite rn data) = advance s rest := by
          cases rn <;> exact hpos hp
        rw [this]; exact quiet none (by simp) (.inl hp)
      | regRead rn => exact quiet _ (by simp) (.inl hp)
      | seqWrite idx sym =>
        rw [show moveResult (advance s rest) (.seqWrite idx sym) = advance s rest from hpos hp]
        exact quiet none (by simp) (.inl hp)
      | seqRead idx => exact quiet _ (by simp) (.inl hp)
      | reset => exact .reset rest hin
      | wait =>
        rw [show moveResult (advance s rest) .wait = sampleStep (keepWaiting (advance s rest)) from hpos hp]
        exact .sample (.wait :: rest) hp (by simp [hin])
      | skip =>
        rw [show moveResult (advance s rest) .skip = sampleStep (advance s rest) from hpos hp]
        exact .sample rest hp (by simp [hin])
    · cases m with
      | regWrite rn data =>
        cases rn with
        | cmd =>
          rw [show moveResult (advance s rest) (.regWrite .cmd data) = startStep (advance s rest) data from hneg hp]
          exact .start data rest hin hp
        | _ =>
          rw [show moveResult (advance s rest) (.regWrite _ data) = writeRegister (advance s rest) _ data from hneg hp]
          exact .write _ data rest (by simp) hin hp
      | regRead rn => exact quiet _ (by simp) (.inr (by simp))
      | seqWrite idx sym =>
        rw [show moveResult (advance s rest) (.seqWrite idx sym) = memWrite (advance s rest) idx sym from hneg hp]
        exact .cell idx sym rest hin hp
      | seqRead idx => exact quiet _ (by simp) (.inr (by simp))
      | reset => exact .reset rest hin
      | wait => rw [show moveResult (advance s rest) .wait = advance s rest from hneg hp]; exact quiet none (by simp) (.inr (by simp))
      | skip => rw [show moveResult (advance s rest) .skip = advance s rest from hneg hp]; exact quiet none (by simp) (.inr (by simp))

theorem step_kind {c : Config} {s t : Block c} (h : step ⟨c, s⟩ = .next ⟨c, t⟩) : StepKind s t := by
  rw [step_next_iff] at h
  injection h with _ h
  subst h
  exact stepBlock_kind s

/-- The steps and the trace, on the block. -/
theorem traceOf_succ (n : Nat) (s : State) :
    traceOf (n + 1) s = samplesOf (stepBlock s.block) ++ traceOf n ⟨s.cfg, stepBlock s.block⟩ := by
  simp only [traceOf, step_eq]

theorem stateAfter_succ (n : Nat) (s : State) :
    stateAfter (n + 1) s = stateAfter n ⟨s.cfg, stepBlock s.block⟩ := by
  simp only [stateAfter, step_eq]

theorem samplesOf_of_none {c : Config} (s : Block c) (h : s.out = none) : samplesOf s = [] := by
  simp [samplesOf, h]

theorem samplesOf_of_some {c : Config} (s : Block c) (e : Event c) (h : s.out = some e) :
    samplesOf s = [(e.k.toNat, e.level)] := by
  simp [samplesOf, h]

end Sys2Proof.Machine
end

