-- ==== Sys2Proof/Tests/Slice0.lean ====
section
/-! SUPPORT. Checks of the model: ill-formed data that the checks refuse, words and steps whose expected values stand in
spec/ (each test names its row of spec/95_test_vectors.md or its rule), and, for every statement that has hypotheses, a
witness that meets them together. -/

namespace Sys2Proof.Tests

open Sys2Proof.Machine

/-! ### Small states of the block with the default parameters -/

/-- The contents of the cells from `n` on. -/
def cells {w : Nat} : Nat → List Nat → Memory w
  | _, [] => []
  | n, v :: vs => (n, BitVec.ofNat w v) :: cells (n + 1) vs

/-- After reset, the host has loaded `bits` and set `SPB`. -/
def ready (bits : List Nat) (spb : Nat) : Block Config.default :=
  { Block.powerOn Config.default 0 [] with
    spb := BitVec.ofNat _ spb
    len := BitVec.ofNat _ bits.length
    seq := cells 0 bits }

/-- The run of command `w` on `bits`, before the sample step at position `(i, j, k)`. -/
def running (w : CmdWord) (bits : List Nat) (spb i j k : Nat) (level : Bit) : Block Config.default :=
  { ready bits spb with
    op := w
    phase := .run
    i := BitVec.ofNat _ i
    j := BitVec.ofNat _ j
    k := BitVec.ofNat _ k
    level := level }

/-- The same state with host moves waiting. -/
def sending {c : Config} (s : Block c) (ms : List (HostMove c)) : Block c := { s with inbox := ms }

/-- The state one step on. -/
def next {c : Config} (s : Block c) : State := stateAfter 1 ⟨c, s⟩

/-- `(PHASE, I, J, K, LEVEL)` of a state. -/
def position (s : State) : Phase × Nat × Nat × Nat × Bit :=
  (s.block.phase, s.block.i.toNat, s.block.j.toNat, s.block.k.toNat, s.block.level)

/-! ### Well-formedness: the checks refuse ill-formed data -/

/-- R6 allows the defaults. -/
theorem test_params_default : (Config.ofParams 8 16 16 2 1).isSome = true := rfl
/-- R6: `AW >= 1`. -/
theorem test_params_aw : Config.ofParams 0 16 16 2 1 = none := rfl
/-- R6: `SW >= 7`, so that `SPB` can hold 100. -/
theorem test_params_sw : Config.ofParams 8 6 16 2 1 = none := rfl
/-- R6: `TW >= 1`. -/
theorem test_params_tw : Config.ofParams 8 16 0 2 1 = none := rfl
/-- R6: `SYMW >= 1`. -/
theorem test_params_symw : Config.ofParams 8 16 16 0 1 = none := rfl
/-- R6: `TICK` is a positive time. -/
theorem test_params_tick : Config.ofParams 8 16 16 2 0 = none := by
  unfold Config.ofParams
  exact dif_neg (by norm_num)
/-- R66: `GET` names no reserved register. -/
theorem test_stmt_get : Stmt.wellFormed (.get .reserved6 : Stmt Config.default) = false ∧
    Stmt.wellFormed (.get .reserved7 : Stmt Config.default) = false ∧
    Stmt.wellFormed (.get .count : Stmt Config.default) = true := by decide
/-- The smallest block: two cells (R6). -/
def tiny : Config := { Config.default with aw := 1, aw_pos := by decide }

/-- R67, R183: with `AW = 1`, `LEN` cannot express a sequence of 2 bits, it can express one of 1. -/
theorem test_stmt_load : Stmt.wellFormed (.load [0#2, 1#2] : Stmt tiny) = false ∧
    Stmt.wellFormed (.load [1#2] : Stmt tiny) = true := by decide
/-- R62, R63: every operation is well formed. -/
theorem test_instr_wellFormed : ∀ w : CmdWord, (decode w).wellFormed = true := by decide
/-- The canonical form of `SEQ` refuses unsorted cells, a cell twice, and a cell at `2^AW`. -/
theorem test_memory_wf : Memory.wf 8 [(1, 0#2), (0, 1#2)] = false ∧ Memory.wf 8 [(3, 0#2), (3, 1#2)] = false ∧
    Memory.wf 8 [(256, 0#2)] = false ∧ Memory.wf 8 [(0, 1#2), (255, 3#2)] = true := by decide

/-! ### Decoding: R61's words, written out from the opcode table -/

/-- R61, row `GEN`: `0b00`. -/
theorem test_decode_gen : decode 0b00#2 = .gen ∧ decodeTableWord 8 0b00000000 = some .gen := by decide
/-- R61, row `NRZL`: `0b01`. -/
theorem test_decode_nrzl : decode 0b01#2 = .nrzl ∧ decodeTableWord 8 0b00000001 = some .nrzl := by decide
/-- R61, row `NRZI`: `0b10`. -/
theorem test_decode_nrzi : decode 0b10#2 = .nrzi ∧ decodeTableWord 8 0b00000010 = some .nrzi := by decide
/-- R61, row `MAN`: `0b11`. -/
theorem test_decode_man : decode 0b11#2 = .man ∧ decodeTableWord 8 0b00000011 = some .man := by decide
/-- R60: no command word has a third bit. -/
theorem test_decode_wide : decodeTableWord 8 0b00000100 = none ∧ decodeTableWord 8 0b11111111 = none := by decide
/-- The very next step after reset runs a placed command: `LEN` is 0, so it enters `ERR` (E13). -/
theorem test_fetch : (stateAfter 1 (State.reset.withFetchWord 8 0b01)).block.phase = .err ∧
    status (stateAfter 1 (State.reset.withFetchWord 8 0b01)).block = 0x17#8 := by decide

/-! ### One step of each operation -/

/-- T1: the step at (0,3,3) emits (3,1) and leads to (1,0,4). -/
theorem test_gen_block_end : samplesOf (next (running 0b00 [1, 0] 4 0 3 3 0)).block = [(3, 1#1)] ∧
    position (next (running 0b00 [1, 0] 4 0 3 3 0)) = (.run, 1, 0, 4, 0#1) := by decide
/-- T1: the step at (1,3,7) emits (7,0) and leads to (2,0,8), `DONE`. -/
theorem test_gen_last : samplesOf (next (running 0b00 [1, 0] 4 1 3 7 0)).block = [(7, 0#1)] ∧
    position (next (running 0b00 [1, 0] 4 1 3 7 0)) = (.done, 2, 0, 8, 0#1) := by decide
/-- L1: event 2 ends the block of the first 1. -/
theorem test_nrzl_one : samplesOf (next (running 0b01 [1, 0, 1] 3 0 2 2 0)).block = [(2, 1#1)] := by decide
/-- L1: event 3 begins the block of the 0, and the latch is left alone. -/
theorem test_nrzl_zero : samplesOf (next (running 0b01 [1, 0, 1] 3 1 0 3 0)).block = [(3, 0#1)] ∧
    position (next (running 0b01 [1, 0, 1] 3 1 0 3 0)) = (.run, 1, 1, 4, 0#1) := by decide
/-- I7: at (1,0,2) with `LEVEL` 0 the latch toggles before the event (2,1). -/
theorem test_nrzi_rise : samplesOf (next (running 0b10 [0, 1, 1] 2 1 0 2 0)).block = [(2, 1#1)] ∧
    position (next (running 0b10 [0, 1, 1] 2 1 0 2 0)) = (.run, 1, 1, 3, 1#1) := by decide
/-- I7: at (1,1,3) the latch holds, although the bit is 1. -/
theorem test_nrzi_hold : samplesOf (next (running 0b10 [0, 1, 1] 2 1 1 3 1)).block = [(3, 1#1)] ∧
    position (next (running 0b10 [0, 1, 1] 2 1 1 3 1)) = (.run, 2, 0, 4, 1#1) := by decide
/-- M4, C2: of 5 samples of a 1, the third (index 2) is already the complement. -/
theorem test_man_odd : samplesOf (next (running 0b11 [1, 0] 5 0 1 1 0)).block = [(1, 1#1)] ∧
    samplesOf (next (running 0b11 [1, 0] 5 0 2 2 0)).block = [(2, 0#1)] := by decide
/-- M5: with `SPB = 1` a 1 is emitted as 0. -/
theorem test_man_unit : samplesOf (next (running 0b11 [1, 0] 1 0 0 0 0)).block = [(0, 0#1)] ∧
    position (next (running 0b11 [1, 0] 1 0 0 0 0)) = (.run, 1, 0, 1, 0#1) := by decide

/-! ### The start step, validation, the host's moves -/

/-- E1: an accepted `NRZL`: `STATUS` is 0x05 while running. -/
theorem test_start : status (next (sending (ready [1, 0] 4) [startMove _ 0b01#2])).block = 0x05#8 ∧
    position (next (sending (ready [1, 0] 4) [startMove _ 0b01#2])) = (.run, 0, 0, 0, 0#1) := by decide
/-- E3: a cell that holds 2. -/
theorem test_start_rejected : status (next (sending (ready [1, 2] 4) [startMove _ 0b01#2])).block = 0x27#8 ∧
    position (next (sending (ready [1, 2] 4) [startMove _ 0b01#2])) = (.err, 0, 0, 0, 0#1) := by decide
/-- E2, E4, E5, E6: one cause each. -/
theorem test_validate_single : validate (ready [] 4) = 0b0001#4 ∧ validate (ready [1, 3] 4) = 0b0010#4 ∧
    validate { ready [1, 0] 4 with bitdur := 0 } = 0b0100#4 ∧ validate (ready [1, 0] 0) = 0b1000#4 := by decide
/-- E7, E8, E9: several causes at once. -/
theorem test_validate_several : validate (ready [] 0) = 0b1001#4 ∧
    validate { ready [] 0 with bitdur := 0 } = 0b1101#4 ∧
    validate { ready [1, 2] 0 with bitdur := 0 } = 0b1110#4 := by decide
/-- E10, E11: cells at or above `LEN` are not examined. -/
theorem test_validate_unread : validate { ready [2] 4 with len := 0 } = 0b0001#4 ∧
    validate { ready [1, 0, 3] 4 with len := 2 } = 0b0000#4 := by decide
/-- H3: a start command during an `NRZI` run is ignored. -/
theorem test_command_lost :
    (next (sending (running 0b10 [0, 1, 1] 2 1 1 3 1) [startMove _ 0b11#2])).block.op = 0b10#2 ∧
    position (next (sending (running 0b10 [0, 1, 1] 2 1 1 3 1) [startMove _ 0b11#2])) = (.run, 1, 1, 3, 1#1) := by
  decide
/-- H1: a write to `SPB` during a run is ignored; H5: after it, the write is taken. -/
theorem test_write_spb :
    (next (sending (running 0b00 [1, 0] 4 0 0 0 0) [.regWrite .spb (9#16)])).block.spb.toNat = 4 ∧
    (next (sending (ready [1, 0] 4) [.regWrite .spb (5#16)])).block.spb.toNat = 5 := by decide
/-- H4: a read of `COUNT` during a run returns `K`. -/
theorem test_read_count :
    (next (sending (running 0b00 [1, 0] 4 0 3 3 0) [.regRead .count])).block.reply = some ⟨24, 3#24⟩ := by decide
/-- H7: a read of a reserved number returns 0. -/
theorem test_read_reserved : regValueAt (ready [1, 0] 4) 6#3 = ⟨0, 0#0⟩ ∧ regValueAt (ready [1, 0] 4) 7#3 = ⟨0, 0#0⟩ := by
  decide
/-- H10: what the registers read after reset. -/
theorem test_read_reset : (regValueAt State.reset.block 1#3).data.toNat = 0 ∧
    (regValueAt State.reset.block 2#3).data.toNat = 100 ∧ (regValueAt State.reset.block 3#3).data.toNat = 1 ∧
    (regValueAt State.reset.block 4#3).data.toNat = 0 ∧ (regValueAt State.reset.block 5#3).data.toNat = 0 := by
  decide
/-- H2: a cell write during a run is ignored; H8: in `ERR` it is taken and `PHASE` stays. -/
theorem test_write_cell :
    (memRead (hostSeqWrite (running 0b00 [1, 1] 4 0 0 0 0) 1#8 0#2) 1#8).toNat = 1 ∧
    (memRead (hostSeqWrite { ready [1, 2] 4 with phase := .err } 1#8 1#2) 1#8).toNat = 1 ∧
    (hostSeqWrite { ready [1, 2] 4 with phase := .err } 1#8 1#2).phase = .err := by decide
/-- V2: with `LEN = 2`, `SPB = 4`, `BITDUR = 1` the times are 0, 1/4, ... 7/4. -/
theorem test_time : timeAt (ready [1, 0] 4) 1 = 1 / 4 ∧ timeAt (ready [1, 0] 4) 7 = 7 / 4 := by
  have h : bitDuration (ready [1, 0] 4) = 1 := by
    simp [bitDuration, ready, Block.powerOn, Config.default]
  have h4 : (ready [1, 0] 4).spb.toNat = 4 := by decide
  simp only [timeAt, h, h4]
  norm_num
/-- V3: block 7 of the reference sequence is at level 1, not the printed 0 (C1). -/
theorem test_wave_nrzi : wave .nrzi 4 (fun n => BitVec.ofNat 1 ([1, 0, 1, 1, 0, 0, 1, 1].getD n 0)) 28 = 1#1 := by
  decide
/-- M3: `100 011`. -/
theorem test_waveform_man : waveform .man 3 2 (fun n => BitVec.ofNat 1 ([1, 0].getD n 0)) =
    [(0, 1#1), (1, 0#1), (2, 0#1), (3, 0#1), (4, 1#1), (5, 1#1)] := by decide
/-- R67: `LOAD [1,0]` stands for two `PUT`s and a write of `LEN`. -/
theorem test_load_moves : stmtMoves (.load [1#2, 0#2] : Stmt Config.default) =
    [.seqWrite 0#8 1#2, .seqWrite 1#8 0#2, .regWrite .len (2#8)] := by decide

/-! ### Witnesses: for each statement with hypotheses, data that meet them together -/

/-- A block of `SYMW = 1` (E14). -/
def oneBit : Config := { Config.default with symw := 1, symw_pos := by decide }

/-- A rejected start has left this state (E2). -/
def failed : Block Config.default := { ready [] 4 with phase := .err, errcause := 0b0001#4 }

/-- The `NRZI` run of V3's first two bits is over. -/
def finished : Block Config.default :=
  { ready [1, 0] 4 with op := 0b10#2, phase := .done, i := 2#8, k := 8#24, level := 1#1 }

/-- A running state meets R30's conditions if its numbers do. -/
theorem runInvariant_of_ok {s : Block Config.default} (hp : s.phase = .run) (h : RunningOk s) : RunInvariant s :=
  ⟨fun _ => h, fun e => absurd (hp.symm.trans e) (by decide), fun e => absurd (hp.symm.trans e) (by decide),
    fun e => absurd (hp.symm.trans e) (by decide)⟩

theorem failed_inv : RunInvariant failed :=
  ⟨fun e => absurd e (by decide), fun _ => ⟨⟨rfl, rfl, rfl⟩, by decide⟩, fun e => absurd e (by decide),
    fun e => absurd e (by decide)⟩

theorem finished_inv : RunInvariant finished :=
  ⟨fun e => absurd e (by decide), fun e => absurd e (by decide), fun e => absurd e (by decide), fun _ => ⟨rfl, rfl⟩⟩

/-- The first, a middle and the last position of the runs of T1 and of its like. -/
theorem running_ok : RunningOk (running 0b00 [1, 0] 4 0 0 0 0) ∧ RunningOk (running 0b10 [1, 0] 4 0 3 3 1) ∧
    RunningOk (running 0b11 [1, 0] 4 1 3 7 0) := by
  refine ⟨⟨?_, ?_, ?_, ?_, ?_, ?_, ?_, ?_⟩, ⟨?_, ?_, ?_, ?_, ?_, ?_, ?_, ?_⟩, ⟨?_, ?_, ?_, ?_, ?_, ?_, ?_, ?_⟩⟩ <;> decide

/-- The next commands on these states are accepted: `SPB` 4, 1, 5, and one bit only. -/
theorem startable : Startable (ready [1, 0] 4) ∧ Startable (ready [1, 0] 1) ∧ Startable (ready [1, 0] 5) ∧
    Startable (ready [1] 4) := by
  unfold Startable
  decide

theorem witness_TableWordsDecode : 4 ≤ 4 ∧ 4 < 256 ∧ 4 ≤ 255 ∧ 255 < 256 := by decide
theorem witness_DecodeAndEncodeAgree : Instr.wellFormed .gen = true ∧ Instr.wellFormed .man = true := by decide
theorem witness_StepRunsDecodedCommand :
    (sending (ready [1, 0] 4) [.regWrite .cmd 0b11#2]).inbox = .regWrite .cmd 0b11#2 :: [] ∧
    decodeTableWord 8 0b11 = some .man := ⟨rfl, by decide⟩
/-- A valid and an invalid input. -/
theorem witness_StartStepEffect :
    ((sending (ready [1, 0] 4) [.regWrite .cmd 0b01#2]).inbox = .regWrite .cmd 0b01#2 :: [] ∧
      (ready [1, 0] 4).phase ≠ .run ∧ validate (ready [1, 0] 4) = 0b0000#4) ∧
    (sending failed [.regWrite .cmd 0b01#2]).inbox = .regWrite .cmd 0b01#2 :: [] ∧ failed.phase ≠ .run ∧
      validate failed ≠ 0b0000#4 := ⟨⟨rfl, by decide⟩, rfl, by decide⟩
/-- From `IDLE` and from `DONE`. -/
theorem witness_AcceptedStartCompletes : ((ready [1, 0] 4).phase ≠ .run ∧ validate (ready [1, 0] 4) = 0b0000#4) ∧
    finished.phase ≠ .run ∧ validate finished = 0b0000#4 := by decide
theorem witness_RejectedStartEntersErr : ((ready [1, 2] 0).phase ≠ .run ∧ validate (ready [1, 2] 0) ≠ 0b0000#4) ∧
    (sending failed [.regWrite .cmd 0b01#2]).inbox = .regWrite .cmd 0b01#2 :: [] ∧
    failed.phase = .err ∧ failed.inbox = [] := ⟨by decide, rfl, rfl, rfl⟩
theorem witness_CommandDuringRunIsLost :
    ((running 0b10 [1, 0] 4 0 3 3 1).phase = .run ∧
      (sending (running 0b10 [1, 0] 4 0 3 3 1) [.regWrite .cmd 0b11#2]).inbox = .regWrite .cmd 0b11#2 :: []) ∧
    (sending (ready [1, 0] 4) [.regWrite .cmd 0b10#2, .regWrite .cmd 0b11#2]).inbox =
      .regWrite .cmd 0b10#2 :: .regWrite .cmd 0b11#2 :: [] ∧ (ready [1, 0] 4).phase ≠ .run ∧
      validate (ready [1, 0] 4) = 0b0000#4 := ⟨⟨rfl, rfl⟩, rfl, by decide⟩
/-- Accepted, rejected, ignored. -/
theorem witness_CommandFrame : (∃ t, exec .man ⟨_, ready [1, 0] 4⟩ = .next ⟨Config.default, t⟩) ∧
    (∃ t, exec .gen ⟨_, failed⟩ = .next ⟨Config.default, t⟩) ∧
    ∃ t, exec .nrzl ⟨_, running 0b10 [1, 0] 4 0 3 3 1⟩ = .next ⟨Config.default, t⟩ := ⟨⟨_, rfl⟩, ⟨_, rfl⟩, _, rfl⟩
/-- `SYMW = 1`; `LEN = 0`; two blocks that differ only above `LEN`. -/
theorem witness_ValidateMask : oneBit.symw = 1 ∧ failed.len.toNat = 0 ∧
    (ready [1, 0] 4).len = { ready [1, 0, 3] 4 with len := 2#8 }.len ∧
    ∀ n, n < (ready [1, 0] 4).len.toNat →
      (cellAt (ready [1, 0] 4) n).toNat = (cellAt { ready [1, 0, 3] 4 with len := 2#8 } n).toNat := by decide
theorem witness_ResetInputInAnyPhase :
    (sending (running 0b10 [1, 0] 4 0 3 3 1) [.reset]).inbox = .reset :: [] ∧
    (sending finished [.reset]).inbox = .reset :: [] := ⟨rfl, rfl⟩
theorem witness_SampleStepEffect :
    ((running 0b11 [1, 0] 4 1 3 7 0).inbox = [] ∧ (running 0b11 [1, 0] 4 1 3 7 0).phase = .run) ∧
    ∃ t : Block Config.default, step ⟨_, running 0b11 [1, 0] 4 1 3 7 0⟩ = .next ⟨Config.default, t⟩ ∧ outValid t = true :=
  ⟨⟨rfl, rfl⟩, _, rfl, rfl⟩
/-- The state after a sample, a state without one, a run with no host move. -/
theorem witness_OutputPorts : (next (running 0b00 [1, 0] 4 0 3 3 0)).block.out.isSome = true ∧ failed.out.isNone = true ∧
    (running 0b00 [1, 0] 4 0 3 3 0).phase = .run ∧ (running 0b00 [1, 0] 4 0 3 3 0).inbox = [] := by decide
theorem witness_NoEnabledStepOutsideRun : (failed.phase ≠ .run ∧ failed.inbox = []) ∧
    (finished.phase ≠ .run ∧ (sending finished [.skip]).inbox = .skip :: []) ∧
    (sending finished [.wait]).phase ≠ .run ∧ (sending finished [.wait]).inbox = .wait :: [] :=
  ⟨by decide, ⟨by decide, rfl⟩, by decide, rfl⟩
/-- The four rows of R115 and a position inside a block. -/
theorem witness_NrziTransitionTable : (∀ l b : Bit, let s := running 0b10 [b.toNat, 0] 4 0 0 0 l
      s.inbox = [] ∧ s.phase = .run ∧ s.op = 0b10#2 ∧ s.j.toNat = 0 ∧ s.level = l ∧ seqBitAt s s.i.toNat = b) ∧
    (running 0b10 [1, 0] 4 0 3 3 1).j.toNat ≠ 0 := by decide
theorem witness_StartClearsLatch : finished.phase ≠ .run ∧ finished.level = 1#1 := by decide
/-- The last cell, and a register. -/
theorem witness_HostWritesDuringRunAreLost : (running 0b10 [1, 0] 4 0 3 3 1).phase = .run ∧
    (sending (running 0b10 [1, 0] 4 0 3 3 1) [.regWrite .spb (9#16)]).inbox = .regWrite .spb (9#16) :: [] ∧
    (sending (running 0b10 [1, 0] 4 0 3 3 1) [.seqWrite 255#8 0#2]).inbox = .seqWrite 255#8 0#2 :: [] :=
  ⟨rfl, rfl, rfl⟩
/-- Each register, outside `RUN`, and two of them in `RUN`. -/
theorem witness_RegisterWriteEffect : (ready [1, 0] 4).phase ≠ .run ∧
    (sending (ready [1, 0] 4) [.regWrite .spb (65535#16)]).inbox = .regWrite .spb (65535#16) :: [] ∧
    (sending (ready [1, 0] 4) [.regWrite .bitdur (0#16)]).inbox = .regWrite .bitdur (0#16) :: [] ∧
    (sending (ready [1, 0] 4) [.regWrite .len (255#8)]).inbox = .regWrite .len (255#8) :: [] ∧
    (sending (ready [1, 0] 4) [.regWrite .status (255#8)]).inbox = .regWrite .status (255#8) :: [] ∧
    (sending (ready [1, 0] 4) [.regWrite .count (1#24)]).inbox = .regWrite .count (1#24) :: [] ∧
    (sending (ready [1, 0] 4) [.regWrite .reserved6 (0#0)]).inbox = .regWrite .reserved6 (0#0) :: [] ∧
    (sending (ready [1, 0] 4) [.regWrite .reserved7 (0#0)]).inbox = .regWrite .reserved7 (0#0) :: [] ∧
    (running 0b10 [1, 0] 4 0 3 3 1).phase = .run ∧
    (sending (running 0b10 [1, 0] 4 0 3 3 1) [.regWrite .cmd 0b00#2]).inbox = .regWrite .cmd 0b00#2 :: [] :=
  ⟨by decide, rfl, rfl, rfl, rfl, rfl, rfl, rfl, rfl, rfl⟩
theorem witness_RegisterReadEffect :
    (sending (running 0b10 [1, 0] 4 0 3 3 1) [.regRead .count]).inbox = .regRead .count :: [] ∧
    (sending failed [.regRead .cmd]).inbox = .regRead .cmd :: [] := ⟨rfl, rfl⟩
theorem witness_ReservedRegisters :
    (sending failed [.regRead .reserved6]).inbox = .regRead .reserved6 :: [] ∧
    (sending failed [.regRead .reserved7]).inbox = .regRead .reserved7 :: [] ∧
    (sending failed [.regWrite .reserved6 (0#0)]).inbox = .regWrite .reserved6 (0#0) :: [] ∧
    (sending failed [.regWrite .reserved7 (0#0)]).inbox = .regWrite .reserved7 (0#0) :: [] := ⟨rfl, rfl, rfl, rfl⟩
theorem witness_StatusLayout :
    (sending finished [.regRead .status]).inbox = .regRead .status :: [] ∧
    (sending finished [.regWrite .status (255#8)]).inbox = .regWrite .status (255#8) :: [] := ⟨rfl, rfl⟩
/-- Outside `RUN` and in it; the first and the last cell, which is above `LEN`. -/
theorem witness_SeqWriteEffect :
    ((sending failed [.seqWrite 0#8 3#2]).inbox = .seqWrite 0#8 3#2 :: [] ∧ failed.phase ≠ .run) ∧
    ((sending finished [.seqWrite 255#8 1#2]).inbox = .seqWrite 255#8 1#2 :: [] ∧ finished.phase ≠ .run) ∧
    (sending (running 0b10 [1, 0] 4 0 3 3 1) [.seqWrite 1#8 0#2]).inbox = .seqWrite 1#8 0#2 :: [] ∧
      (running 0b10 [1, 0] 4 0 3 3 1).phase = .run := ⟨⟨rfl, by decide⟩, ⟨rfl, by decide⟩, rfl, rfl⟩
theorem witness_SeqReadEffect :
    (sending (running 0b10 [1, 0] 4 0 3 3 1) [.seqRead 255#8]).inbox = .seqRead 255#8 :: [] := rfl
/-- Running, failed and finished states meet the invariant, and each has a step. -/
theorem witness_StepKeepsRunInvariant : RunInvariant (running 0b10 [1, 0] 4 0 3 3 1) ∧ RunInvariant failed ∧
    RunInvariant finished ∧ ∃ t, step ⟨_, running 0b10 [1, 0] 4 0 3 3 1⟩ = .next ⟨Config.default, t⟩ :=
  ⟨runInvariant_of_ok rfl running_ok.2.1, failed_inv, finished_inv, _, rfl⟩
theorem witness_StepKeepsMemoryForm : MemoryInvariant (sending failed [.seqWrite 255#8 1#2]) ∧
    ∃ t, step ⟨_, sending failed [.seqWrite 255#8 1#2]⟩ = .next ⟨Config.default, t⟩ := ⟨rfl, _, rfl⟩
/-- A latch inside a 1 bit's block of an `NRZI` run, and a `MAN` run. -/
theorem witness_StepKeepsLatchInvariant :
    (RunInvariant (running 0b10 [1, 0] 4 0 3 3 1) ∧ LatchInvariant (running 0b10 [1, 0] 4 0 3 3 1)) ∧
    (RunInvariant (running 0b11 [1, 0] 4 1 3 7 0) ∧ LatchInvariant (running 0b11 [1, 0] 4 1 3 7 0)) ∧
    ∃ t, step ⟨_, running 0b10 [1, 0] 4 0 3 3 1⟩ = .next ⟨Config.default, t⟩ :=
  ⟨⟨runInvariant_of_ok rfl running_ok.2.1, by unfold LatchInvariant; decide⟩,
    ⟨runInvariant_of_ok rfl running_ok.2.2, by unfold LatchInvariant; decide⟩, _, rfl⟩
theorem witness_ParametersAreFixed :
    (∃ t, step ⟨Config.default, failed⟩ = .next t) ∧ ∃ t, exec .man ⟨Config.default, failed⟩ = .next t :=
  ⟨⟨_, rfl⟩, _, rfl⟩
/-- An accepted and a rejected start, a sample that is not the last and the last, reset, a read during a run. -/
theorem witness_PhaseTransitions :
    ((sending (ready [1, 0] 4) [.regWrite .cmd 0b00#2]).inbox = .regWrite .cmd 0b00#2 :: [] ∧
      (ready [1, 0] 4).phase ≠ .run ∧ validate (ready [1, 0] 4) = 0b0000#4) ∧
    ((sending failed [.regWrite .cmd 0b00#2]).inbox = .regWrite .cmd 0b00#2 :: [] ∧ failed.phase ≠ .run ∧
      validate failed ≠ 0b0000#4) ∧
    ((running 0b10 [1, 0] 4 0 3 3 1).phase = .run ∧ outValid (next (running 0b10 [1, 0] 4 0 3 3 1)).block = true) ∧
    ((running 0b11 [1, 0] 4 1 3 7 0).phase = .run ∧ outValid (next (running 0b11 [1, 0] 4 1 3 7 0)).block = true) ∧
    (sending finished [.reset]).inbox = .reset :: [] ∧
    (sending (running 0b10 [1, 0] 4 0 3 3 1) [.regRead .count]).phase = .run ∧
    outValid (next (sending (running 0b10 [1, 0] 4 0 3 3 1) [.regRead .count])).block = false ∧
    ∀ rest, (sending (running 0b10 [1, 0] 4 0 3 3 1) [.regRead .count]).inbox ≠ .reset :: rest :=
  ⟨⟨rfl, by decide⟩, ⟨rfl, by decide⟩, by decide, by decide, rfl, rfl, by decide, fun _ h => (by cases h)⟩
/-- A host write changes `SPB`, `BITDUR`, `LEN`, a cell. -/
theorem witness_InputChangesOnlyByHost :
    (next (sending failed [.regWrite .spb (9#16)])).block.spb.toNat ≠ failed.spb.toNat ∧
    (next (sending failed [.regWrite .bitdur (9#16)])).block.bitdur.toNat ≠ failed.bitdur.toNat ∧
    (next (sending failed [.regWrite .len (9#8)])).block.len.toNat ≠ failed.len.toNat ∧
    (cellAt (next (sending finished [.seqWrite 0#8 3#2])).block 0).toNat ≠ (cellAt finished 0).toNat ∧
    ∀ rest, (sending failed [.regWrite .len (9#8)]).inbox ≠ .reset :: rest :=
  ⟨by decide, by decide, by decide, by decide, fun _ h => (by cases h)⟩
/-- A start after an `NRZI` run, reset after one, a 1 bit in an `NRZI` run. -/
theorem witness_LatchChangesOnlyAtOnes :
    (next (sending finished [.regWrite .cmd 0b00#2])).block.level ≠ finished.level ∧
    (next (sending finished [.reset])).block.level ≠ finished.level ∧
    (next (running 0b10 [1, 0] 4 0 0 0 0)).block.level ≠ (running 0b10 [1, 0] 4 0 0 0 0).level := by decide
theorem witness_ControlRegistersWrittenByStartOnly :
    (next (sending finished [.regWrite .cmd 0b00#2])).block.op ≠ finished.op ∧
    (next (sending failed [.reset])).block.errcause ≠ failed.errcause := by decide
/-- The first and the last position of a run. -/
theorem witness_PositionIsSplitIndex : RunInvariant (running 0b00 [1, 0] 4 0 0 0 0) ∧
    RunInvariant (running 0b11 [1, 0] 4 1 3 7 0) ∧ (running 0b11 [1, 0] 4 1 3 7 0).phase = .run :=
  ⟨runInvariant_of_ok rfl running_ok.1, runInvariant_of_ok rfl running_ok.2.2, rfl⟩
/-- The last position, and one where `J` is not yet `SPB - 1`. -/
theorem witness_CountersDoNotWrap :
    (RunInvariant (running 0b11 [1, 0] 4 1 3 7 0) ∧ (running 0b11 [1, 0] 4 1 3 7 0).phase = .run) ∧
    RunInvariant (running 0b00 [1, 0] 4 0 0 0 0) ∧
      (running 0b00 [1, 0] 4 0 0 0 0).j ≠ (running 0b00 [1, 0] 4 0 0 0 0).spb - 1#Config.default.sw :=
  ⟨⟨runInvariant_of_ok rfl running_ok.2.2, rfl⟩, runInvariant_of_ok rfl running_ok.1, by decide⟩
/-- A run with no host move. -/
theorem witness_NextEventOfRun : RunInvariant (running 0b10 [1, 0] 4 0 3 3 1) ∧
    LatchInvariant (running 0b10 [1, 0] 4 0 3 3 1) ∧ (running 0b10 [1, 0] 4 0 3 3 1).phase = .run ∧
    (∀ rest, (running 0b10 [1, 0] 4 0 3 3 1).inbox ≠ .reset :: rest) ∧
    ∃ t, step ⟨_, running 0b10 [1, 0] 4 0 3 3 1⟩ = .next ⟨Config.default, t⟩ :=
  ⟨runInvariant_of_ok rfl running_ok.2.1, by unfold LatchInvariant; decide, rfl, fun _ h => (by cases h), _, rfl⟩
/-- The last sample of a run; a finished run whose host reads. -/
theorem witness_FinishedRunEndValues :
    (RunInvariant (running 0b11 [1, 0] 4 1 3 7 0) ∧ (running 0b11 [1, 0] 4 1 3 7 0).phase = .run ∧
      ∃ t : Block Config.default, step ⟨_, running 0b11 [1, 0] 4 1 3 7 0⟩ = .next ⟨Config.default, t⟩ ∧ t.phase = .done) ∧
    RunFinished (sending finished [.regRead .count]) ∧
    (∀ rn data rest, (sending finished [.regRead .count]).inbox ≠ .regWrite rn data :: rest) ∧
    (∀ idx sym rest, (sending finished [.regRead .count]).inbox ≠ .seqWrite idx sym :: rest) ∧
    ∀ rest, (sending finished [.regRead .count]).inbox ≠ .reset :: rest :=
  ⟨⟨runInvariant_of_ok rfl running_ok.2.2, rfl, _, rfl, rfl⟩, by unfold RunFinished; decide,
    fun _ _ _ h => (by cases h), fun _ _ _ h => (by cases h), fun _ h => (by cases h)⟩
theorem witness_RunIsWaveform : Startable (ready [1, 0] 4) ∧
    failed.phase ≠ .run ∧ failed.inbox = [] ∧ validate failed ≠ 0b0000#4 := ⟨startable.1, by decide⟩
theorem witness_RunTakesItsSteps : Startable (ready [1, 0] 4) ∧ 7 < runLength (ready [1, 0] 4) ∧
    runLength (ready [1, 0] 4) ≤ 8 ∧ failed.phase ≠ .run ∧ validate failed ≠ 0b0000#4 := ⟨startable.1, by decide⟩
/-- The host configures an idle block. -/
theorem witness_AfterResetBlockWaits : (sending (ready [1, 0] 4) [.regWrite .len (1#8)]).phase = .idle ∧
    (∀ w rest, (sending (ready [1, 0] 4) [.regWrite .len (1#8)]).inbox ≠ .regWrite .cmd w :: rest) ∧
    ∃ t, step ⟨_, sending (ready [1, 0] 4) [.regWrite .len (1#8)]⟩ = .next ⟨Config.default, t⟩ :=
  ⟨rfl, fun _ _ h => (by cases h), _, rfl⟩
/-- Two blocks of different parameters, phase, latch and unread cells, with the same input. -/
theorem witness_RunIsPure :
    let s : Block oneBit := { Block.powerOn oneBit 5 [] with spb := 4#16, len := 2#8, seq := cells 0 [1, 0, 1] }
    s.phase ≠ .run ∧ finished.phase ≠ .run ∧ s.inbox = [] ∧ finished.inbox = [] ∧
    s.spb.toNat = finished.spb.toNat ∧ s.bitdur.toNat = finished.bitdur.toNat ∧
    s.len.toNat = finished.len.toNat ∧
    ∀ n, n < s.len.toNat → (cellAt s n).toNat = (cellAt finished n).toNat := by decide
theorem witness_GenAndNrzlAgree : (ready [1, 0] 4).phase ≠ .run ∧ (ready [1, 0] 4).inbox = [] := by decide
/-- The last event of the first block and the first of the second. -/
theorem witness_NrzlBlockProperty : Startable (ready [1, 0] 4) ∧ 0 < (ready [1, 0] 4).len.toNat ∧
    3 < 1 * (ready [1, 0] 4).spb.toNat ∧ 3 + 1 < runLength (ready [1, 0] 4) := ⟨startable.1, by decide⟩
theorem witness_NrziChangesExactlyAtOnes : Startable (ready [1, 0] 4) ∧ 1 < (ready [1, 0] 4).len.toNat ∧
    3 < (ready [1, 0] 4).spb.toNat := ⟨startable.1, by decide⟩
theorem witness_NrziIsParity : Startable (ready [1, 0] 4) ∧ 1 < (ready [1, 0] 4).len.toNat :=
  ⟨startable.1, by decide⟩
/-- An odd `SPB` (M4), and `SPB = 1`, whose first half is empty. -/
theorem witness_ManchesterHalves : Startable (ready [1, 0] 5) ∧ 1 < (ready [1, 0] 5).len.toNat ∧
    Startable (ready [1, 0] 1) := ⟨startable.2.2.1, by decide, startable.2.1⟩
theorem witness_ManchesterUnitOversampling : Startable (ready [1, 0] 1) ∧ (ready [1, 0] 1).spb.toNat = 1 :=
  ⟨startable.2.1, by decide⟩
/-- `SPB = 5` and `SPB = 1`. -/
theorem witness_ManchesterTransitions : (Startable (ready [1, 0] 5) ∧ 2 ≤ (ready [1, 0] 5).spb.toNat ∧
      0 + 1 < (ready [1, 0] 5).len.toNat ∧ 3 + 1 < (ready [1, 0] 5).spb.toNat) ∧
    Startable (ready [1, 0] 1) ∧ (ready [1, 0] 1).spb.toNat = 1 ∧ 0 + 1 < (ready [1, 0] 1).len.toNat :=
  ⟨⟨startable.2.2.1, by decide⟩, startable.2.1, by decide⟩
theorem witness_ManchesterCounts : Startable (ready [1, 0] 5) ∧ Startable (ready [1, 0] 4) ∧
    (ready [1, 0] 4).spb.toNat % 2 = 0 := ⟨startable.2.2.1, startable.1, by decide⟩
theorem witness_TimeAxisProperties : Startable (ready [1, 0] 5) := startable.2.2.1
theorem witness_LengthOneIsOneBlock : Startable (ready [1] 4) ∧ (ready [1] 4).len.toNat = 1 ∧
    3 < (ready [1] 4).spb.toNat := ⟨startable.2.2.2, by decide⟩
/-- `[1]` and then `[1, 0]`, against `[1, 1, 0]`. -/
theorem witness_SplitSequence : Startable (ready [1, 1, 0] 4) ∧ Startable (ready [1] 4) ∧
    Startable (ready [1, 0] 4) ∧ (ready [1] 4).spb = (ready [1, 1, 0] 4).spb ∧
    (ready [1, 0] 4).spb = (ready [1, 1, 0] 4).spb ∧
    (ready [1, 1, 0] 4).len.toNat = (ready [1] 4).len.toNat + (ready [1, 0] 4).len.toNat ∧
    (∀ n, n < (ready [1] 4).len.toNat → (cellAt (ready [1] 4) n).toNat = (cellAt (ready [1, 1, 0] 4) n).toNat) ∧
    ∀ n, n < (ready [1, 0] 4).len.toNat →
      (cellAt (ready [1, 0] 4) n).toNat = (cellAt (ready [1, 1, 0] 4) ((ready [1] 4).len.toNat + n)).toNat :=
  ⟨by unfold Startable; decide, startable.2.2.2, startable.1, by decide⟩
theorem witness_LoadWritesSequence : finished.phase ≠ .run ∧
    Stmt.wellFormed (.load [1#2, 3#2] : Stmt Config.default) = true ∧
    (sending finished (stmtMoves (.load [1#2, 3#2]) ++ [.wait])).inbox = stmtMoves (.load [1#2, 3#2]) ++ [.wait] :=
  ⟨by decide, by decide, rfl⟩
/-- A run with eight samples to go, and a finished one. -/
theorem witness_WaitRunsToTheEnd :
    (RunInvariant (sending (running 0b00 [1, 0] 4 0 0 0 0) [.wait]) ∧
      (sending (running 0b00 [1, 0] 4 0 0 0 0) [.wait]).inbox = .wait :: [] ∧
      (sending (running 0b00 [1, 0] 4 0 0 0 0) [.wait]).phase = .run) ∧
    RunInvariant (sending finished [.wait]) ∧ (sending finished [.wait]).inbox = .wait :: [] ∧
      (sending finished [.wait]).phase ≠ .run := by
  refine ⟨⟨runInvariant_of_ok rfl ⟨?_, ?_, ?_, ?_, ?_, ?_, ?_, ?_⟩, rfl, rfl⟩,
    ⟨fun e => absurd (show Phase.done = Phase.run from e) (by decide), finished_inv.2, finished_inv.3,
      finished_inv.4⟩, rfl, ?_⟩ <;> decide

end Sys2Proof.Tests
end

section
/-! PROOFS. The statements about the state (spec/10_state.md): what each step does to the registers and to the
sequence, and the invariants that it keeps. -/

namespace Sys2Proof.Machine

/-! ### What each operation leaves, register by register -/

/-- The registers that the host cannot write directly are the same: `OP`, `PHASE`, `ERRCAUSE`, the position, the
latch. -/
structure SameRun {c : Config} (s t : Block c) : Prop where
  op : t.op = s.op
  phase : t.phase = s.phase
  errcause : t.errcause = s.errcause
  i : t.i = s.i
  j : t.j = s.j
  k : t.k = s.k
  level : t.level = s.level

/-- With the same input the sequence bits are the same. -/
theorem SameInput.seqBitAt_eq {c : Config} {s t : Block c} (h : SameInput s t) : seqBitAt t = seqBitAt s := by
  obtain ⟨-, -, -, hcell⟩ := h
  funext n
  simp only [seqBitAt, hcell]

/-- Where the input is the same, anything follows from a change of it. -/
theorem SameInput.elim_change {c : Config} {s t : Block c} {p q r : Prop} {f : Nat → Prop} (h : SameInput s t) :
    (t.spb ≠ s.spb → p) ∧ (t.bitdur ≠ s.bitdur → q) ∧ (t.len ≠ s.len → r) ∧
      ∀ n, cellAt t n ≠ cellAt s n → f n := by
  obtain ⟨hspb, hbitdur, hlen, hcell⟩ := h
  exact ⟨absurd hspb, absurd hbitdur, absurd hlen, fun n => absurd (hcell n)⟩

/-- A step that only takes the move, and perhaps answers, leaves the run alone. -/
theorem sameRun_quiet {c : Config} (s : Block c) (rest : List (HostMove c)) (r : Option Reply) :
    SameRun s { advance s rest with reply := r } := ⟨rfl, rfl, rfl, rfl, rfl, rfl, rfl⟩

/-- It leaves the input alone too. -/
theorem sameInput_quiet {c : Config} (s : Block c) (rest : List (HostMove c)) (r : Option Reply) :
    SameInput s { advance s rest with reply := r } := ⟨rfl, rfl, rfl, fun _ => rfl⟩

/-- A register write outside `CMD` leaves the run alone. -/
theorem sameRun_writeRegister {c : Config} (s : Block c) (rest : List (HostMove c)) (rn : RegNum)
    (data : BitVec (rn.width c)) : SameRun s (writeRegister (advance s rest) rn data) := by
  cases rn <;> exact ⟨rfl, rfl, rfl, rfl, rfl, rfl, rfl⟩

/-- A cell write leaves the run alone. -/
theorem sameRun_memWrite {c : Config} (s : Block c) (rest : List (HostMove c)) (idx : BitVec c.aw)
    (sym : BitVec c.symw) : SameRun s (memWrite (advance s rest) idx sym) := ⟨rfl, rfl, rfl, rfl, rfl, rfl, rfl⟩

@[simp] theorem writeRegister_out {c : Config} (s : Block c) (rn : RegNum) (data : BitVec (rn.width c)) :
    (writeRegister s rn data).out = s.out := by
  cases rn <;> rfl

@[simp] theorem cellAt_writeRegister {c : Config} (s : Block c) (rn : RegNum) (data : BitVec (rn.width c)) (n : Nat) :
    cellAt (writeRegister s rn data) n = cellAt s n := by
  cases rn <;> rfl

/-- A register write changes no register of the input but the one it names. -/
theorem writeRegister_input {c : Config} (s : Block c) (rn : RegNum) (data : BitVec (rn.width c)) :
    ((writeRegister s rn data).spb = s.spb ∨ rn = .spb) ∧
      ((writeRegister s rn data).bitdur = s.bitdur ∨ rn = .bitdur) ∧
      ((writeRegister s rn data).len = s.len ∨ rn = .len) := by
  cases rn <;> simp [writeRegister]

section StartStep
variable {c : Config} (s : Block c) (w : CmdWord)

@[simp] theorem startStep_op : (startStep s w).op = w := by rw [startStep_eq]
@[simp] theorem startStep_phase : (startStep s w).phase = if validate s = 0#4 then .run else .err := by
  rw [startStep_eq]
@[simp] theorem startStep_errcause : (startStep s w).errcause = validate s := by rw [startStep_eq]
@[simp] theorem startStep_i : (startStep s w).i = 0#c.aw := by rw [startStep_eq]
@[simp] theorem startStep_j : (startStep s w).j = 0#c.sw := by rw [startStep_eq]
@[simp] theorem startStep_k : (startStep s w).k = 0#c.kw := by rw [startStep_eq]
@[simp] theorem startStep_level : (startStep s w).level = 0#1 := by rw [startStep_eq]
@[simp] theorem startStep_out : (startStep s w).out = s.out := by rw [startStep_eq]
@[simp] theorem startStep_reply : (startStep s w).reply = s.reply := by rw [startStep_eq]
@[simp] theorem startStep_inbox : (startStep s w).inbox = s.inbox := by rw [startStep_eq]
@[simp] theorem startStep_draws : (startStep s w).draws = s.draws := by rw [startStep_eq]
@[simp] theorem startStep_seqDraw : (startStep s w).seqDraw = s.seqDraw := by rw [startStep_eq]

/-- The start step writes no register and no cell of the input. -/
theorem sameInput_startStep : SameInput s (startStep s w) := by
  rw [startStep_eq]
  exact ⟨rfl, rfl, rfl, fun _ => rfl⟩

end StartStep

section SampleStep
variable {c : Config} (s : Block c)

@[simp] theorem sampleStep_op : (sampleStep s).op = s.op := by rw [sampleStep_eq, sampleWith_eq]
@[simp] theorem sampleStep_errcause : (sampleStep s).errcause = s.errcause := by rw [sampleStep_eq, sampleWith_eq]
@[simp] theorem sampleStep_phase : (sampleStep s).phase =
    if s.j = s.spb - 1#c.sw ∧ s.i = s.len - 1#c.aw then .done else s.phase := by
  rw [sampleStep_eq, sampleWith_eq]
@[simp] theorem sampleStep_i : (sampleStep s).i = if s.j = s.spb - 1#c.sw then s.i + 1#c.aw else s.i := by
  rw [sampleStep_eq, sampleWith_eq]
@[simp] theorem sampleStep_j : (sampleStep s).j = if s.j = s.spb - 1#c.sw then 0#c.sw else s.j + 1#c.sw := by
  rw [sampleStep_eq, sampleWith_eq]
@[simp] theorem sampleStep_k : (sampleStep s).k = s.k + 1#c.kw := by rw [sampleStep_eq, sampleWith_eq]
@[simp] theorem sampleStep_level : (sampleStep s).level = latchNext s := by rw [sampleStep_eq, sampleWith_eq]
@[simp] theorem sampleStep_out : (sampleStep s).out =
    some ⟨s.k, lvl (decode s.op) (inputBit s) s.j s.spb (latchNext s)⟩ := by
  rw [sampleStep_eq, sampleWith_eq]

/-- The sample step writes no register and no cell of the input. -/
theorem sameInput_sampleStep : SameInput s (sampleStep s) := by
  rw [sampleStep_eq, sampleWith_eq]
  exact ⟨rfl, rfl, rfl, fun _ => rfl⟩

end SampleStep

/-- A sample step moves the latch only at the first sample of a 1 bit's block in an `NRZI` run (R111, R114). -/
theorem latchNext_ne_level {c : Config} {s : Block c} (h : latchNext s ≠ s.level) :
    s.op = 0b10#2 ∧ s.j.toNat = 0 ∧ inputBit s = 1#1 := by
  by_cases hop : decode s.op = .nrzi ∧ s.j = 0#c.sw
  · rw [latchNext, if_pos hop] at h
    refine ⟨by rw [← encode_decode s.op, hop.1]; rfl, by simp [hop.2], ?_⟩
    exact (BitVec.eq_zero_or_eq_one (inputBit s)).resolve_left fun hb => h (by simp [hb])
  · exact absurd (if_neg hop) h

/-- Outside an `NRZI` run a sample step keeps the latch (R111). -/
theorem latchNext_of_ne_nrzi {c : Config} {s : Block c} (hop : decode s.op ≠ .nrzi) : latchNext s = s.level :=
  if_neg fun h => hop h.1

/-- `STATUS[1:0] = PHASE`, `STATUS[3:2] = OP`, `STATUS[7:4] = ERRCAUSE` (R22). -/
theorem status_fields {c : Config} (s : Block c) :
    (status s).extractLsb' 0 2 = s.phase.bits ∧ (status s).extractLsb' 2 2 = s.op ∧
      (status s).extractLsb' 4 4 = s.errcause := by
  refine ⟨BitVec.extractLsb'_append_eq_right, ?_, ?_⟩ <;>
    rw [status, BitVec.extractLsb'_append_eq_of_le (by decide)]
  · exact BitVec.extractLsb'_append_eq_right
  · exact BitVec.extractLsb'_append_eq_left

/-- `SPB` can hold `SPB_RESET`, since `SW ≥ 7` (R6). -/
theorem toNat_powerOn_spb (c : Config) (d : Nat) (ms : List (HostMove c)) :
    (Block.powerOn c d ms).spb.toNat = 100 := by
  have hw : 2 ^ 7 ≤ 2 ^ c.sw := Nat.pow_le_pow_right (by decide) c.sw_ge
  rw [powerOn_spb, BitVec.toNat_ofNat, Config.spbReset, Nat.mod_eq_of_lt (by omega)]

/-- `BITDUR` can hold 1, since `TW ≥ 1` (R6). -/
theorem toNat_powerOn_bitdur (c : Config) (d : Nat) (ms : List (HostMove c)) :
    (Block.powerOn c d ms).bitdur.toNat = 1 := by
  have hw : 2 ^ 1 ≤ 2 ^ c.tw := Nat.pow_le_pow_right (by decide) c.tw_pos
  rw [powerOn_bitdur, BitVec.toNat_ofNat, Nat.mod_eq_of_lt (by omega)]

/-! ### What a step and a command answer -/

/-- What a command answers is the start command of its word. -/
theorem exec_next {i : Instr} {c : Config} {s t : Block c} (h : exec i ⟨c, s⟩ = .next ⟨c, t⟩) :
    t = issueCommand s (encode i) := by
  rw [exec_eq] at h
  injection h with h
  injection h with _ h
  exact h.symm

/-- A step with a host move answers what that move leaves, after the bookkeeping of every step. -/
theorem step_of_inbox {c : Config} {s : Block c} {m : HostMove c} {rest : List (HostMove c)}
    (hin : s.inbox = m :: rest) : step ⟨c, s⟩ = .next ⟨c, moveResult (taken s rest) m⟩ := by
  rw [step_eq, stepBlock_cons s m rest hin]
  rfl

/-- What such a step leaves. -/
theorem next_of_inbox {c : Config} {s t : Block c} {m : HostMove c} {rest : List (HostMove c)}
    (hin : s.inbox = m :: rest) (h : step ⟨c, s⟩ = .next ⟨c, t⟩) : t = moveResult (taken s rest) m := by
  rw [step_of_inbox hin] at h
  injection h with h
  injection h with _ h
  exact h.symm

/-- In `RUN` every register write is lost (R25, R174). -/
theorem moveResult_regWrite_run {c : Config} (s : Block c) (rn : RegNum) (data : BitVec (rn.width c))
    (hp : s.phase = .run) : moveResult s (.regWrite rn data) = s := by
  cases rn with
  | cmd => exact if_pos hp
  | _ => exact hostWrite_run s _ data hp

/-- Outside `RUN` a register write other than a start command replaces the register, where it can be written (R25). -/
theorem moveResult_regWrite_rest {c : Config} (s : Block c) {rn : RegNum} (data : BitVec (rn.width c))
    (hrn : rn ≠ .cmd) (hp : s.phase ≠ .run) : moveResult s (.regWrite rn data) = writeRegister s rn data := by
  cases rn with
  | cmd => exact absurd rfl hrn
  | _ => exact hostWrite_rest s _ data hp

/-- A write to a read-only or reserved number is ignored in any phase (R25, R27). -/
theorem moveResult_regWrite_readOnly {c : Config} (s : Block c) {rn : RegNum} (data : BitVec (rn.width c))
    (hrn : rn ∈ [RegNum.status, .count, .reserved6, .reserved7]) : moveResult s (.regWrite rn data) = s := by
  by_cases hp : s.phase = .run
  · exact moveResult_regWrite_run s rn data hp
  · rw [moveResult_regWrite_rest s data (by rintro rfl; simp at hrn) hp]
    cases rn with
    | cmd | spb | bitdur | len => simp at hrn
    | status | count | reserved6 | reserved7 => rfl

section RegWrite
variable {c : Config} {s : Block c} {rn : RegNum} {data : BitVec (rn.width c)} {rest : List (HostMove c)}

theorem step_regWrite_run (hin : s.inbox = .regWrite rn data :: rest) (hp : s.phase = .run) :
    step ⟨c, s⟩ = .next ⟨c, taken s rest⟩ := by
  rw [step_of_inbox hin, moveResult_regWrite_run (taken s rest) rn data hp]

theorem step_regWrite_rest (hin : s.inbox = .regWrite rn data :: rest) (hrn : rn ≠ .cmd) (hp : s.phase ≠ .run) :
    step ⟨c, s⟩ = .next ⟨c, writeRegister (taken s rest) rn data⟩ := by
  rw [step_of_inbox hin, moveResult_regWrite_rest (taken s rest) data hrn hp]

theorem step_regWrite_readOnly (hin : s.inbox = .regWrite rn data :: rest)
    (hrn : rn ∈ [RegNum.status, .count, .reserved6, .reserved7]) : step ⟨c, s⟩ = .next ⟨c, taken s rest⟩ := by
  rw [step_of_inbox hin, moveResult_regWrite_readOnly (taken s rest) data hrn]

end RegWrite

/-- The kinds of step, as the rules about a run need them: a start, a reset, a sample, and every other step, which
leaves the run alone, in `RUN` its input too, and shows no event. -/
inductive StepEffect {c : Config} (s : Block c) : Block c → Prop where
  | start (w : CmdWord) (rest : List (HostMove c)) (hin : s.inbox = .regWrite .cmd w :: rest) (hp : s.phase ≠ .run) :
      StepEffect s (startStep (advance s rest) w)
  | reset (rest : List (HostMove c)) (hin : s.inbox = .reset :: rest) :
      StepEffect s (Block.powerOn c (s.draws + 1) rest)
  | sample (rest : List (HostMove c)) (hp : s.phase = .run) : StepEffect s (sampleStep (advance s rest))
  | kept {t : Block c} (same : SameRun s t) (hin : s.phase = .run → SameInput s t) (hout : t.out = none) :
      StepEffect s t

/-- The inversion of a step by these kinds. -/
theorem step_effect {c : Config} {s t : Block c} (h : step ⟨c, s⟩ = .next ⟨c, t⟩) : StepEffect s t := by
  cases step_kind h with
  | start w rest hin hp => exact .start w rest hin hp
  | write rn data rest hrn hin hp =>
    exact .kept (sameRun_writeRegister s rest rn data) (absurd · hp) (by simp)
  | cell idx sym rest hin hp => exact .kept (sameRun_memWrite s rest idx sym) (absurd · hp) rfl
  | reset rest hin => exact .reset rest hin
  | sample rest hp hr => exact .sample rest hp
  | quiet rest r hr hc => exact .kept (sameRun_quiet s rest r) (fun _ => sameInput_quiet s rest r) rfl

/-- A step that shows an event was a sample step. -/
theorem StepEffect.sample_of_outValid {c : Config} {s t : Block c} (h : StepEffect s t) (ht : outValid t = true) :
    ∃ rest, s.phase = .run ∧ t = sampleStep (advance s rest) := by
  cases h with
  | start w rest hin hp => simp [outValid] at ht
  | reset rest hin => simp [outValid] at ht
  | sample rest hp => exact ⟨rest, hp, rfl⟩
  | kept same hin hout => simp [outValid, hout] at ht

/-- Without a start, a sample and a reset, a step keeps `PHASE` (R16). -/
theorem StepEffect.phase_eq {c : Config} {s t : Block c} (h : StepEffect s t)
    (hc : s.phase = .run ∨ ∀ w rest, s.inbox ≠ .regWrite .cmd w :: rest) (ht : outValid t = false)
    (hr : ∀ rest, s.inbox ≠ .reset :: rest) : t.phase = s.phase := by
  cases h with
  | start w rest hin hp => exact absurd hin (hc.resolve_left hp w rest)
  | reset rest hin => exact absurd hin (hr rest)
  | sample rest hp => simp [outValid] at ht
  | kept same hin hout => exact same.phase

/-! ### Validation and the position, in numbers -/

/-- A register is not 0 exactly when its number is at least 1. -/
theorem decide_eq_zero_eq_false_iff {w : Nat} (x : BitVec w) :
    decide (x = BitVec.ofNat w 0) = false ↔ 1 ≤ x.toNat := by
  rw [decide_eq_false_iff_not, BitVec.toNat_eq]
  simp [Nat.one_le_iff_ne_zero]

/-- What an empty cause mask says of the input (R142). -/
theorem validate_eq_zero_iff_input {c : Config} (s : Block c) :
    validate s = 0#4 ↔ 1 ≤ s.len.toNat ∧ 1 ≤ s.spb.toNat ∧ 1 ≤ s.bitdur.toNat ∧
      ∀ n, n < s.len.toNat → (cellAt s n).toNat < 2 := by
  have hsym : causeSymbol s = false ↔ ∀ n, n < s.len.toNat → (cellAt s n).toNat < 2 := by
    rw [← Bool.not_eq_true, causeSymbol, anyNonBinary_iff]
    push Not
    rfl
  rw [validate_eq_zero_iff, hsym, causeSpb, causeBitdur, causeEmpty, decide_eq_zero_eq_false_iff,
    decide_eq_zero_eq_false_iff, decide_eq_zero_eq_false_iff]
  tauto

/-- Below another value of the same width, adding 1 does not wrap. -/
theorem toNat_add_one_of_lt {w : Nat} {x y : BitVec w} (h : x.toNat < y.toNat) :
    (x + 1#w).toNat = x.toNat + 1 := by
  have hy := y.isLt
  rw [BitVec.toNat_add, BitVec.toNat_ofNat, Nat.add_mod_mod, Nat.mod_eq_of_lt (by omega)]

/-- Below another value of the same width, being its predecessor is a matter of numbers. -/
theorem eq_sub_one_iff_of_lt {w : Nat} {x y : BitVec w} (h : x.toNat < y.toNat) :
    x = y - 1#w ↔ x.toNat + 1 = y.toNat := by
  rw [← toNat_add_one_of_lt h, ← BitVec.toNat_eq, BitVec.eq_sub_iff_add_eq]

/-- In a run the next index still fits `COUNT`: `K + 1 ≤ LEN * SPB < 2^KW` (R90). -/
theorem RunningOk.k_lt_runLength {c : Config} {s : Block c} (h : RunningOk s) : s.k.toNat < runLength s := calc
    s.k.toNat = s.i.toNat * s.spb.toNat + s.j.toNat := h.k_eq
    _ < s.i.toNat * s.spb.toNat + s.spb.toNat := Nat.add_lt_add_left h.j_lt _
    _ = (s.i.toNat + 1) * s.spb.toNat := (Nat.succ_mul _ _).symm
    _ ≤ runLength s := Nat.mul_le_mul_right _ h.i_lt

theorem runLength_lt {c : Config} (s : Block c) : runLength s < 2 ^ c.kw := by
  rw [runLength, Config.kw, Nat.pow_add]
  exact Nat.mul_lt_mul'' s.len.isLt s.spb.isLt

theorem RunningOk.k_succ {c : Config} {s : Block c} (h : RunningOk s) : (s.k + 1#c.kw).toNat = s.k.toNat + 1 := by
  have hk := h.k_lt_runLength
  have hl := runLength_lt s
  rw [BitVec.toNat_add, BitVec.toNat_ofNat, Nat.add_mod_mod, Nat.mod_eq_of_lt (by omega)]

/-- The position of a run is its sample index split by `SPB` (R86). -/
theorem RunningOk.split_k {c : Config} {s : Block c} (h : RunningOk s) :
    s.k.toNat / s.spb.toNat = s.i.toNat ∧ s.k.toNat % s.spb.toNat = s.j.toNat := by
  have hk := h.k_eq
  rw [Nat.mul_comm, Nat.add_comm] at hk
  exact (Nat.div_mod_unique h.spb_pos).2 ⟨hk.symm, h.j_lt⟩

/-- Where a sample step of a run goes: on in the block, to the next block, or to the end (R81). -/
inductive SampleMove {c : Config} (s t : Block c) : Prop where
  | inBlock (hj : s.j.toNat + 1 < s.spb.toNat) (phase : t.phase = .run) (i : t.i.toNat = s.i.toNat)
      (j : t.j.toNat = s.j.toNat + 1)
  | nextBlock (hj : s.j.toNat + 1 = s.spb.toNat) (hi : s.i.toNat + 1 < s.len.toNat) (phase : t.phase = .run)
      (i : t.i.toNat = s.i.toNat + 1) (j : t.j.toNat = 0)
  | finish (hj : s.j.toNat + 1 = s.spb.toNat) (hi : s.i.toNat + 1 = s.len.toNat) (phase : t.phase = .done)
      (i : t.i.toNat = s.len.toNat) (j : t.j.toNat = 0)

/-- From a position of a run the sample step moves by plain numbers: nothing wraps (R90). -/
theorem RunningOk.sampleMove {c : Config} {s : Block c} (h : RunningOk s) (hp : s.phase = .run) :
    SampleMove s (sampleStep s) := by
  have hj := eq_sub_one_iff_of_lt h.j_lt
  have hi := eq_sub_one_iff_of_lt h.i_lt
  by_cases ej : s.j.toNat + 1 = s.spb.toNat
  · have i : (sampleStep s).i.toNat = s.i.toNat + 1 := by
      rw [sampleStep_i, if_pos (hj.2 ej), toNat_add_one_of_lt h.i_lt]
    have j : (sampleStep s).j.toNat = 0 := by simp [hj, ej]
    by_cases ei : s.i.toNat + 1 = s.len.toNat
    · exact .finish ej ei (by simp [hj, hi, ej, ei]) (i.trans ei) j
    · exact .nextBlock ej (Nat.lt_of_le_of_ne h.i_lt ei) (by simp [hi, ei, hp]) i j
  · have j : (sampleStep s).j.toNat = s.j.toNat + 1 := by
      rw [sampleStep_j, if_neg (mt hj.1 ej), toNat_add_one_of_lt h.j_lt]
    exact .inBlock (Nat.lt_of_le_of_ne h.j_lt ej) (by simp [hj, ej, hp]) (by simp [hj, ej]) j

/-- The last sample of a run is the one whose successor has number `LEN * SPB`. -/
theorem RunningOk.done_iff {c : Config} {s : Block c} (h : RunningOk s) (hp : s.phase = .run) :
    (sampleStep s).phase = .done ↔ s.k.toNat + 1 = runLength s := by
  have hk := h.k_eq
  cases h.sampleMove hp with
  | inBlock hj phase i j =>
    have : s.k.toNat + 1 < runLength s := calc
      s.k.toNat + 1 < s.i.toNat * s.spb.toNat + s.spb.toNat := by omega
      _ = (s.i.toNat + 1) * s.spb.toNat := (Nat.succ_mul _ _).symm
      _ ≤ runLength s := Nat.mul_le_mul_right _ h.i_lt
    simp only [phase, reduceCtorEq, false_iff]
    omega
  | nextBlock hj hi phase i j =>
    have : s.k.toNat + 1 < runLength s := calc
      s.k.toNat + 1 = (s.i.toNat + 1) * s.spb.toNat := by rw [hk, Nat.add_assoc, hj, Nat.succ_mul]
      _ < runLength s := Nat.mul_lt_mul_of_pos_right hi h.spb_pos
    simp only [phase, reduceCtorEq, false_iff]
    omega
  | finish hj hi phase i j =>
    simp only [phase, true_iff]
    rw [hk, Nat.add_assoc, hj, ← Nat.succ_mul, Nat.succ_eq_add_one, hi, runLength]

/-! ### The invariants, operation by operation -/

/-- A run is in order as long as its input and `ERRCAUSE` stay and its new position is inside the sequence. -/
theorem RunningOk.of_position {c : Config} {s t : Block c} (h : RunningOk s) (hin : SameInput s t)
    (herr : t.errcause = s.errcause) (hi : t.i.toNat < s.len.toNat) (hj : t.j.toNat < s.spb.toNat)
    (hk : t.k.toNat = t.i.toNat * s.spb.toNat + t.j.toNat) : RunningOk t := by
  obtain ⟨hspb, hbitdur, hlen, hcell⟩ := hin
  constructor
  case len_pos => rw [hlen]; exact h.len_pos
  case spb_pos => rw [hspb]; exact h.spb_pos
  case bitdur_pos => rw [hbitdur]; exact h.bitdur_pos
  case cells_binary => simpa only [hlen, hcell] using h.cells_binary
  case i_lt => rw [hlen]; exact hi
  case j_lt => rw [hspb]; exact hj
  case k_eq => rw [hspb]; exact hk
  case errcause_zero => rw [herr]; exact h.errcause_zero

theorem RunningOk.runInvariant {c : Config} {s : Block c} (h : RunningOk s) (hp : s.phase = .run) : RunInvariant s where
  running _ := h
  failed e := by simp [hp] at e
  fresh e := by simp [hp] at e
  finished e := by simp [hp] at e

/-- A step that leaves the run alone keeps R30's conditions; in `RUN` it must leave the input alone too. -/
theorem RunInvariant.of_sameRun {c : Config} {s t : Block c} (h : RunInvariant s) (hrun : SameRun s t)
    (hin : s.phase = .run → SameInput s t) : RunInvariant t := by
  obtain ⟨-, hphase, herr, hi, hj, hk, -⟩ := hrun
  constructor
  case running =>
    intro hp
    rw [hphase] at hp
    have ok := h.running hp
    exact ok.of_position (hin hp) herr (by rw [hi]; exact ok.i_lt) (by rw [hj]; exact ok.j_lt)
      (by rw [hi, hj, hk]; exact ok.k_eq)
  case failed => simpa only [AtOrigin, hphase, herr, hi, hj, hk] using h.failed
  case fresh => simpa only [AtOrigin, hphase, herr, hi, hj, hk] using h.fresh
  case finished => simpa only [hphase, herr, hj] using h.finished

/-- A step that leaves the run alone keeps the meaning of the latch; in `RUN` it must leave the input alone too. -/
theorem LatchInvariant.of_sameRun {c : Config} {s t : Block c} (h : LatchInvariant s) (hrun : SameRun s t)
    (hin : s.phase = .run → SameInput s t) : LatchInvariant t := by
  intro hp
  rw [hrun.phase] at hp
  simpa only [hrun.op, hrun.i, hrun.j, hrun.level, (hin hp).seqBitAt_eq] using h hp

/-- Taking the host's move keeps R30's conditions. -/
theorem RunInvariant.of_advance {c : Config} {s : Block c} (h : RunInvariant s) (rest : List (HostMove c)) :
    RunInvariant (advance s rest) :=
  h.of_sameRun (sameRun_quiet s rest none) fun _ => sameInput_quiet s rest none

/-- Taking the host's move keeps the meaning of the latch. -/
theorem LatchInvariant.of_advance {c : Config} {s : Block c} (h : LatchInvariant s) (rest : List (HostMove c)) :
    LatchInvariant (advance s rest) :=
  h.of_sameRun (sameRun_quiet s rest none) fun _ => sameInput_quiet s rest none

theorem runInvariant_powerOn (c : Config) (d : Nat) (ms : List (HostMove c)) :
    RunInvariant (Block.powerOn c d ms) where
  running e := by simp at e
  failed e := by simp at e
  fresh _ := by simp [AtOrigin]
  finished e := by simp at e

theorem latchInvariant_powerOn (c : Config) (d : Nat) (ms : List (HostMove c)) :
    LatchInvariant (Block.powerOn c d ms) := fun e => by simp at e

theorem runInvariant_startStep {c : Config} (s : Block c) (w : CmdWord) : RunInvariant (startStep s w) := by
  by_cases hv : validate s = 0#4
  · obtain ⟨hlen, hspb, hbitdur, hcell⟩ := (validate_eq_zero_iff_input s).1 hv
    obtain ⟨espb, ebitdur, elen, ecell⟩ := sameInput_startStep s w
    have ok : RunningOk (startStep s w) :=
      { len_pos := by rwa [elen]
        spb_pos := by rwa [espb]
        bitdur_pos := by rwa [ebitdur]
        cells_binary := by simpa only [elen, ecell] using hcell
        i_lt := by rw [elen, startStep_i, BitVec.toNat_zero]; exact hlen
        j_lt := by rw [espb, startStep_j, BitVec.toNat_zero]; exact hspb
        k_eq := by simp
        errcause_zero := by simpa using hv }
    exact ok.runInvariant (by simp [hv])
  · constructor <;> simp [AtOrigin, hv]

theorem latchInvariant_startStep {c : Config} (s : Block c) (w : CmdWord) : LatchInvariant (startStep s w) := by
  intro _
  simp [levAfter]

/-- The sample step keeps R30's conditions: it stays inside the sequence or leaves `DONE` with `J = 0`. -/
theorem runInvariant_sampleStep {c : Config} {s : Block c} (h : RunningOk s) (hp : s.phase = .run) :
    RunInvariant (sampleStep s) := by
  have hin := sameInput_sampleStep s
  have herr := sampleStep_errcause s
  have hk : (sampleStep s).k.toNat = s.i.toNat * s.spb.toNat + s.j.toNat + 1 := by
    rw [sampleStep_k, h.k_succ, h.k_eq]
  cases h.sampleMove hp with
  | inBlock hj phase i j =>
    exact (h.of_position hin herr (i ▸ h.i_lt) (by omega) (by rw [hk, i, j]; rfl)).runInvariant phase
  | nextBlock hj hi phase i j =>
    have hk' : (sampleStep s).k.toNat = (s.i.toNat + 1) * s.spb.toNat := by
      rw [hk, Nat.add_assoc, hj, Nat.succ_mul]
    exact (h.of_position hin herr (by omega) (j ▸ h.spb_pos) (by rw [hk', i, j]; rfl)).runInvariant phase
  | finish hj hi phase i j =>
    constructor <;> simp only [phase, reduceCtorEq, IsEmpty.forall_iff, forall_const]
    exact ⟨j, herr.trans h.errcause_zero⟩

/-- In an `NRZI` run the latch that a sample step leaves is `lev` of the current bit (R111). -/
theorem LatchInvariant.latchNext_eq {c : Config} {s : Block c} (h : LatchInvariant s) (hp : s.phase = .run)
    (hop : decode s.op = .nrzi) : latchNext s = levAfter (seqBitAt s) (s.i.toNat + 1) := by
  have hl := (h hp).1 hop
  by_cases hj : s.j = 0#c.sw
  · rw [if_pos (by simp [hj])] at hl
    simp only [latchNext, hop, hj, and_self, if_true, hl]
    rfl
  · rw [if_neg (by simpa [BitVec.toNat_eq] using hj)] at hl
    simp only [latchNext, hj, and_false, if_false, hl]

/-- The sample step keeps the meaning of the latch. -/
theorem latchInvariant_sampleStep {c : Config} {s : Block c} (hok : RunningOk s) (h : LatchInvariant s)
    (hp : s.phase = .run) : LatchInvariant (sampleStep s) := by
  intro hp'
  rw [sampleStep_op, sampleStep_level, (sameInput_sampleStep s).seqBitAt_eq]
  refine ⟨fun hop => ?_, fun hop => ?_⟩
  · rw [h.latchNext_eq hp hop]
    cases hok.sampleMove hp with
    | inBlock hj phase i j => rw [i, j, if_neg (Nat.succ_ne_zero _)]
    | nextBlock hj hi phase i j => rw [i, j, if_pos rfl]
    | finish hj hi phase i j => exact absurd (phase.symm.trans hp') (by decide)
  · rw [latchNext_of_ne_nrzi hop]
    exact (h hp).2 hop

/-- The level that a sample step emits is event number `K` of the waveform (R87), if the latch is `lev` of the current
bit in an `NRZI` run. -/
theorem RunningOk.lvl_eq_wave {c : Config} {s : Block c} (h : RunningOk s) (hl : LatchInvariant s)
    (hp : s.phase = .run) : lvl (decode s.op) (inputBit s) s.j s.spb (latchNext s) =
      wave (decode s.op) s.spb.toNat (seqBitAt s) s.k.toNat := by
  obtain ⟨hi, hj⟩ := h.split_k
  cases hop : decode s.op with
  | gen => simp only [lvl, wave, hi]; rfl
  | nrzl => simp only [lvl, wave, hi]; rfl
  | nrzi => simp only [lvl, wave, hi, hl.latchNext_eq hp hop]
  | man =>
    simp only [lvl, wave, hi, hj, BitVec.lt_def, BitVec.toNat_ushiftRight, Nat.shiftRight_one]
    rfl

/-- The sample step that ends a run leaves R30's values of a finished run. -/
theorem RunningOk.runFinished {c : Config} {s : Block c} (h : RunningOk s) (hp : s.phase = .run)
    (hdone : (sampleStep s).phase = .done) : RunFinished (sampleStep s) := by
  obtain ⟨hspb, -, hlen, -⟩ := sameInput_sampleStep s
  have hk := (h.done_iff hp).1 hdone
  cases h.sampleMove hp with
  | inBlock hj phase i j => exact absurd (phase.symm.trans hdone) (by decide)
  | nextBlock hj hi phase i j => exact absurd (phase.symm.trans hdone) (by decide)
  | finish hj hi phase i j =>
    refine ⟨phase, by rw [i, hlen], j, ?_, by rw [sampleStep_errcause, h.errcause_zero]⟩
    rw [sampleStep_k, h.k_succ, hk, runLength, runLength, hlen, hspb]

/-! ### The invariants hold after reset and every step keeps them -/

/-- Settles O28: the reset state is `IDLE` at the origin, so no clause about a run speaks of it. -/
theorem resetMeetsInvariants : Obligations.ResetMeetsInvariants := by
  have h : ∀ (c : Config) (d : Nat) (ms : List (HostMove c)), RunInvariant (Block.powerOn c d ms) ∧
      LatchInvariant (Block.powerOn c d ms) ∧ MemoryInvariant (Block.powerOn c d ms) := fun c d ms =>
    ⟨runInvariant_powerOn c d ms, latchInvariant_powerOn c d ms, wf_nil c.aw⟩
  exact ⟨h, h Config.default 0 []⟩

/-- Settles O29: a start, a sample and a reset have lemmas of their own, and every other step leaves the run alone. -/
theorem stepKeepsRunInvariant : Obligations.StepKeepsRunInvariant := by
  intro c s t h hstep
  cases step_effect hstep with
  | start w rest hin hp => exact runInvariant_startStep _ w
  | reset rest hin => exact runInvariant_powerOn c _ rest
  | sample rest hp => exact runInvariant_sampleStep ((h.of_advance rest).running hp) hp
  | kept same hin hout => exact h.of_sameRun same hin

/-- Settles O31: only a sample of a run gives the latch a new meaning to keep. -/
theorem stepKeepsLatchInvariant : Obligations.StepKeepsLatchInvariant := by
  intro c s t h hl hstep
  cases step_effect hstep with
  | start w rest hin hp => exact latchInvariant_startStep _ w
  | reset rest hin => exact latchInvariant_powerOn c _ rest
  | sample rest hp => exact latchInvariant_sampleStep ((h.of_advance rest).running hp) (hl.of_advance rest) hp
  | kept same hin hout => exact hl.of_sameRun same hin

/-! ### What a step can change -/

/-- Settles O34: each clause speaks of one kind of step. -/
theorem phaseTransitions : Obligations.PhaseTransitions := by
  refine ⟨rfl, rfl, rfl, rfl, fun c s => (status_fields s).1, fun c s t hstep => ⟨?_, ?_, ?_, ?_⟩⟩
  · intro w rest hin hp
    have ht : t = startStep (advance s rest) w := (next_of_inbox hin hstep).trans (if_neg hp)
    simp [ht]
  · intro hp hout
    obtain ⟨rest, -, rfl⟩ := (step_effect hstep).sample_of_outValid hout
    simp [hp]
  · intro rest hin
    rw [next_of_inbox hin hstep]
    rfl
  · exact (step_effect hstep).phase_eq

/-- Settles O35: only a register write or a cell write outside `RUN` is a step that does not keep the input. -/
theorem inputChangesOnlyByHost : Obligations.InputChangesOnlyByHost := by
  intro c s t hstep hr
  cases step_kind hstep with
  | start w rest hin hp => exact (sameInput_startStep (advance s rest) w).elim_change
  | write rn data rest hrn hin hp =>
    obtain ⟨hspb, hbitdur, hlen⟩ := writeRegister_input (advance s rest) rn data
    refine ⟨fun h => ⟨hp, ?_⟩, fun h => ⟨hp, ?_⟩, fun h => ⟨hp, ?_⟩,
      fun n h => absurd (cellAt_writeRegister (advance s rest) rn data n) h⟩
    · obtain rfl := hspb.resolve_left h
      exact ⟨data, rest, hin⟩
    · obtain rfl := hbitdur.resolve_left h
      exact ⟨data, rest, hin⟩
    · obtain rfl := hlen.resolve_left h
      exact ⟨data, rest, hin⟩
  | cell idx sym rest hin hp =>
    refine ⟨(absurd rfl ·), (absurd rfl ·), (absurd rfl ·), fun n h => ⟨hp, idx, sym, rest, hin, ?_⟩⟩
    exact by_contra fun hn => h (cellAt_memWrite_other (advance s rest) idx sym (Ne.symm hn))
  | reset rest hin => exact absurd hin (hr rest)
  | sample rest hp hr => exact (sameInput_sampleStep (advance s rest)).elim_change
  | quiet rest r hr hc => exact (sameInput_quiet s rest r).elim_change

/-- Settles O36: a start and a reset leave 0, and a sample that changes the latch toggles it. -/
theorem latchChangesOnlyAtOnes : Obligations.LatchChangesOnlyAtOnes := by
  intro c s t hstep hne
  cases step_effect hstep with
  | start w rest hin hp => exact .inl ⟨startStep_level _ w, hp, w, rest, hin⟩
  | reset rest hin => exact .inr (.inl ⟨rfl, rest, hin⟩)
  | sample rest hp =>
    rw [sampleStep_level] at hne
    obtain ⟨hop, hj, hb⟩ := latchNext_ne_level (s := advance s rest) hne
    exact .inr (.inr ⟨hp, hop, hj, hb, by simp [outValid]⟩)
  | kept same hin hout => exact absurd same.level hne

/-- Settles O37: a sample keeps both registers, and so does every step but a start and a reset. -/
theorem controlRegistersWrittenByStartOnly : Obligations.ControlRegistersWrittenByStartOnly := by
  intro c s t hstep hne
  cases step_effect hstep with
  | start w rest hin hp => exact .inl ⟨w, rest, hin, hp, by simp, by simp⟩
  | reset rest hin => exact .inr ⟨rest, hin, rfl, rfl⟩
  | sample rest hp => exact absurd hne (by simp)
  | kept same hin hout => exact absurd hne (by simp [same.op, same.errcause])

/-- Settles O40: in `RUN` and without reset a step is a sample or leaves the run and its input alone. -/
theorem nextEventOfRun : Obligations.NextEventOfRun := by
  intro c s t h hl hrun hr hstep
  cases step_effect hstep with
  | start w rest hin hp => exact absurd hrun hp
  | reset rest hin => exact absurd hin (hr rest)
  | sample rest hp =>
    have ok : RunningOk (advance s rest) := (h.of_advance rest).running hp
    refine ⟨sameInput_sampleStep (advance s rest), sampleStep_op _, sampleStep_errcause _, .inr ⟨?_, ?_, ?_⟩⟩
    · rw [samplesOf_of_some _ _ (sampleStep_out _), ok.lvl_eq_wave (hl.of_advance rest) hp]
      rfl
    · rw [sampleStep_k, ok.k_succ, advance_k]
    · rw [sampleStep_k, ok.k_succ]
      exact ok.done_iff hp
  | kept same hin hout =>
    exact ⟨hin hrun, same.op, same.errcause,
      .inl ⟨samplesOf_of_none t hout, same.phase.trans hrun, same.level, same.i, same.j, same.k⟩⟩

/-- Settles O41: the step to `DONE` is the last sample, and a finished run that the host leaves alone is kept by a quiet
step. -/
theorem finishedRunEndValues : Obligations.FinishedRunEndValues := by
  refine ⟨fun c s t h hrun hstep hdone => ?_, fun c s t h hstep hw hc hr => ?_⟩
  · cases step_effect hstep with
    | start w rest hin hp => exact absurd hrun hp
    | reset rest hin => simp at hdone
    | sample rest hp => exact ((h.of_advance rest).running hp).runFinished hp hdone
    | kept same hin hout => exact absurd (same.phase.symm.trans hdone) (by simp [hrun])
  · cases step_kind hstep with
    | start w rest hin hp => exact absurd hin (hw .cmd w rest)
    | write rn data rest hrn hin hp => exact absurd hin (hw rn data rest)
    | cell idx sym rest hin hp => exact absurd hin (hc idx sym rest)
    | reset rest hin => exact absurd hin (hr rest)
    | sample rest hp _ => exact absurd (hp.symm.trans h.1) (by decide)
    | quiet rest r _ _ => exact h

/-! ### Commands, reset, the ports, the parameters -/

/-- Settles O9: a command in `RUN` changes nothing at all, and outside `RUN` it is the start step. -/
theorem commandFrame : Obligations.CommandFrame := by
  intro i c s t h
  rw [exec_next h]
  by_cases hp : s.phase = .run
  · rw [issueCommand, if_pos hp]
    exact ⟨⟨rfl, rfl, rfl, fun _ => rfl⟩, rfl, rfl, rfl, rfl, rfl⟩
  · rw [issueCommand, if_neg hp]
    exact ⟨sameInput_startStep s _, by simp [samplesOf], by simp, by simp, by simp, by simp⟩

/-- Settles O11: the registers are read off the reset state, and 100 and 1 fit their registers. -/
theorem resetValues : Obligations.ResetValues := by
  refine ⟨fun c d ms => ⟨toNat_powerOn_spb c d ms, toNat_powerOn_bitdur c d ms, ?_⟩, 0, rfl⟩
  simp [outValid, outK, outLevel, cellAt, Memory.lookup]

/-- Settles O15: the ports are read off the event, and a turn in `RUN` is a sample step. -/
theorem outputPorts : Obligations.OutputPorts := by
  refine ⟨fun c s e he => ?_, fun c s he => ?_, fun c s hp hin => ?_⟩
  · simp [outValid, outK, outLevel, samplesOf, he]
  · simp [outValid, outK, outLevel, samplesOf, he]
  · refine ⟨sampleStep (advance s []), _, ?_, sampleStep_out _⟩
    rw [step_eq, stepBlock_nil s hin, sequencerTurn_run (advance s []) hp]

/-- Settles O33: a step answers `stepBlock`, a command answers `issueCommand`, on the same parameters. -/
theorem parametersAreFixed : Obligations.ParametersAreFixed := by
  refine ⟨fun s t h => ?_, fun i s t h => ?_⟩
  · rw [(step_next_iff s t).1 h]
  · rw [exec_eq] at h
    injection h with h
    rw [← h]

/-! ### The register map and the host's register moves -/

/-- Settles O21: a write outside `RUN`, to a read-only number, and in `RUN`. -/
theorem registerWriteEffect : Obligations.RegisterWriteEffect := by
  intro c s rest
  refine ⟨fun hp => ⟨?_, ?_, ?_⟩, ?_, ?_, ?_, ?_, ?_⟩
  · exact fun v hin => step_regWrite_rest hin (by decide) hp
  · exact fun v hin => step_regWrite_rest hin (by decide) hp
  · exact fun v hin => step_regWrite_rest hin (by decide) hp
  · exact fun v hin => step_regWrite_readOnly hin (by decide)
  · exact fun v hin => step_regWrite_readOnly hin (by decide)
  · exact fun v hin => step_regWrite_readOnly hin (by decide)
  · exact fun v hin => step_regWrite_readOnly hin (by decide)
  · exact fun hp rn data hin => step_regWrite_run hin hp

/-- Settles O22: the read value of each register is a field, and none is `I`, `J` or `LEVEL`. -/
theorem registerReadEffect : Obligations.RegisterReadEffect := by
  refine ⟨fun c s rn rest hin => ?_, fun c s => ⟨rfl, rfl, rfl, rfl, rfl, rfl, rfl, rfl⟩, fun c s rn i j l => ?_⟩
  · rw [step_of_inbox hin]
    cases rn <;> rfl
  · cases rn <;> rfl

/-- Settles O23: a read answers the zero of width 0, a write is ignored. -/
theorem reservedRegisters : Obligations.ReservedRegisters := by
  refine ⟨rfl, rfl, fun c s rn rest hrn => ⟨fun hin => ?_, fun data hin => ?_⟩⟩
  · refine ⟨_, _, step_of_inbox hin, rfl, ?_⟩
    rcases hrn with rfl | rfl <;> rfl
  · exact step_regWrite_readOnly hin (by rcases hrn with rfl | rfl <;> decide)

/-- Settles O24: the fields are `status_fields`, and `STATUS` is read-only. -/
theorem statusLayout : Obligations.StatusLayout := by
  refine ⟨rfl, fun c s => ?_⟩
  obtain ⟨hphase, hop, herr⟩ := status_fields s
  exact ⟨hphase, hop, herr, fun rest hin => step_of_inbox hin,
    fun v rest hin => step_regWrite_readOnly hin (by decide)⟩

/-- Settles O25: eight numbers and eight registers, by cases. -/
theorem registerMapIsComplete : Obligations.RegisterMapIsComplete := by
  refine ⟨by decide, fun rn => ?_, rfl, rfl, rfl, rfl, rfl, rfl, fun c => ⟨rfl, rfl, rfl, rfl, rfl, rfl⟩⟩
  cases rn <;> rfl

end Sys2Proof.Machine
end

section
/-! PROOFS. The statements about the sequence buffer (spec/20_memory.md): what the host's cell moves do, and the
canonical form that every step keeps. -/

namespace Sys2Proof.Machine

/-! ### What each operation leaves of the cells -/

/-- A start step stores no cell (R80). -/
@[simp] theorem startStep_seq {c : Config} (s : Block c) (w : CmdWord) : (startStep s w).seq = s.seq := by
  rw [startStep_eq]

/-- A sample step stores no cell (R81). -/
@[simp] theorem sampleStep_seq {c : Config} (s : Block c) : (sampleStep s).seq = s.seq := by
  rw [sampleStep_eq, sampleWith_eq]

/-- A register write stores no cell (R25). -/
@[simp] theorem writeRegister_seq {c : Config} (s : Block c) (rn : RegNum) (data : BitVec (rn.width c)) :
    (writeRegister s rn data).seq = s.seq := by
  cases rn <;> rfl

section SeqWrite
variable {c : Config} {s : Block c} {idx : BitVec c.aw} {sym : BitVec c.symw} {rest : List (HostMove c)}

/-- In `RUN` a cell write is lost (R44). -/
theorem step_seqWrite_run (hin : s.inbox = .seqWrite idx sym :: rest) (hp : s.phase = .run) :
    step ⟨c, s⟩ = .next ⟨c, taken s rest⟩ := by
  have hlost : moveResult (taken s rest) (.seqWrite idx sym) = taken s rest := if_pos hp
  rw [step_of_inbox hin, hlost]

/-- Outside `RUN` a cell write is the block's one memory operation (R44). -/
theorem step_seqWrite_rest (hin : s.inbox = .seqWrite idx sym :: rest) (hp : s.phase ≠ .run) :
    step ⟨c, s⟩ = .next ⟨c, memWrite (taken s rest) idx sym⟩ := by
  have hwrite : moveResult (taken s rest) (.seqWrite idx sym) = memWrite (taken s rest) idx sym := if_neg hp
  rw [step_of_inbox hin, hwrite]

end SeqWrite

/-- Every step keeps the cells, empties `SEQ`, or writes one cell: what it can do to the list behind them. -/
theorem step_seq_cases {c : Config} {s t : Block c} (h : step ⟨c, s⟩ = .next ⟨c, t⟩) :
    t.seq = s.seq ∨ t.seq = [] ∨
      ∃ (idx : BitVec c.aw) (sym : BitVec c.symw), t.seq = (memWrite s idx sym).seq := by
  cases step_kind h with
  | start w rest hin hp => exact .inl (startStep_seq _ w)
  | write rn data rest hrn hin hp => exact .inl (writeRegister_seq _ rn data)
  | cell idx sym rest hin hp => exact .inr (.inr ⟨idx, sym, rfl⟩)
  | reset rest hin => exact .inr (.inl rfl)
  | sample rest hp hr => exact .inl (sampleStep_seq _)
  | quiet rest r hr hc => exact .inl rfl

/-! ### The statements -/

/-- Settles O30: keeping the list, emptying it and writing a cell each keep the form. -/
theorem stepKeepsMemoryForm : Obligations.StepKeepsMemoryForm := by
  intro c s t h hstep
  unfold MemoryInvariant at h ⊢
  rcases step_seq_cases hstep with hseq | hseq | ⟨idx, sym, hseq⟩ <;> rw [hseq]
  · exact h
  · exact wf_nil c.aw
  · exact wf_memWrite s idx sym h

/-- Settles O26: the memory after the step is that of `memWrite`, which the rules of `cellAt` read. -/
theorem seqWriteEffect : Obligations.SeqWriteEffect := by
  intro c s idx sym rest hin
  exact ⟨fun hp => ⟨(memWrite (taken s rest) idx sym).seq, step_seqWrite_rest hin hp,
      cellAt_memWrite_same (taken s rest) idx sym, fun n hn => cellAt_memWrite_other (taken s rest) idx sym hn⟩,
    fun hp => step_seqWrite_run hin hp⟩

/-- Settles O27: in every phase the move is the same answer, and a cell reads alike before and after the bookkeeping. -/
theorem seqReadEffect : Obligations.SeqReadEffect := by
  intro c s idx rest hin
  have hread : moveResult (taken s rest) (.seqRead idx) =
      { taken s rest with reply := some ⟨c.symw, memRead s idx⟩ } := rfl
  rw [step_of_inbox hin, hread]

end Sys2Proof.Machine
end

section
/-! PROOFS. The statements about the encoding and the host script (spec/30_encoding.md): the decoder and the table
words, the step that runs a command word, and what `LOAD` and `WAIT` do over their steps. -/

namespace Sys2Proof.Machine

/-! ### Command words -/

/-- A number of at most two bits is a command word (R60). -/
theorem commandWord_of_lt {nbits w : Nat} (h : w % 2 ^ nbits < 4) :
    commandWord nbits w = .ok (BitVec.ofNat 2 (w % 2 ^ nbits)) := if_pos h

/-- A number with a bit above bit 1 is refused by name (R60). -/
theorem commandWord_of_le {nbits w : Nat} (h : 4 ≤ w % 2 ^ nbits) :
    commandWord nbits w = .error .widerThanCommandWord := if_neg (Nat.not_lt.2 h)

/-- What the table decoder reads from a number is the operation of its command word, if it is one. -/
theorem decodeTableWord_eq_some_iff {nbits w : Nat} {i : Instr} :
    decodeTableWord nbits w = some i ↔ w % 2 ^ nbits < 4 ∧ decode (BitVec.ofNat 2 (w % 2 ^ nbits)) = i := by
  unfold decodeTableWord
  by_cases h : w % 2 ^ nbits < 4
  · simp [commandWord_of_lt h, h]
  · simp [commandWord_of_le (Nat.not_lt.1 h), h]

/-- Where the number is no command word, the table decoder reads nothing. -/
theorem decodeTableWord_of_le {nbits w : Nat} (h : 4 ≤ w % 2 ^ nbits) : decodeTableWord nbits w = none := by
  rw [decodeTableWord, commandWord_of_le h]

/-- A host write to `CMD` runs the decoded operation (R65). -/
theorem step_regWrite_cmd {c : Config} {s : Block c} {w : CmdWord} {rest : List (HostMove c)}
    (hin : s.inbox = .regWrite .cmd w :: rest) : step ⟨c, s⟩ = exec (decode w) ⟨c, taken s rest⟩ := by
  rw [step_of_inbox hin, exec_eq, encode_decode]
  rfl

/-- With a command word placed, the next step runs its operation, before the host's other moves (log 8). -/
theorem step_withFetchWord {c : Config} (s : Block c) (nbits w : Nat) :
    step (State.withFetchWord ⟨c, s⟩ nbits w) =
      exec (decode (BitVec.ofNat 2 (w % 2 ^ nbits))) ⟨c, taken s s.inbox⟩ :=
  step_regWrite_cmd (s := placeCommand s nbits w) rfl

/-- Settles O1: each code is the word of its operation, and a word has two bits. -/
theorem decoderIsTotal : Obligations.DecoderIsTotal :=
  ⟨decode_encode .gen, decode_encode .nrzl, decode_encode .nrzi, decode_encode .man, by decide⟩

/-- Settles O2: a table row is the word of its operation, and a byte from 4 on is its own low eight bits. -/
theorem tableWordsDecode : Obligations.TableWordsDecode := by
  obtain ⟨-, hgen⟩ := Laws.TableWord.gen
  obtain ⟨-, hnrzl⟩ := Laws.TableWord.nrzl
  obtain ⟨-, hnrzi⟩ := Laws.TableWord.nrzi
  obtain ⟨-, hman⟩ := Laws.TableWord.man
  refine ⟨hgen 8 (by decide), hnrzl 8 (by decide), hnrzi 8 (by decide), hman 8 (by decide), fun w hw hbyte => ?_⟩
  have hwide : 4 ≤ w % 2 ^ 8 := by omega
  exact ⟨decodeTableWord_of_le hwide, commandWord_of_le hwide⟩

/-- Settles O3: decoder and encoder are inverse to each other, in both directions. -/
theorem decodeAndEncodeAgree : Obligations.DecodeAndEncodeAgree :=
  ⟨fun i _ => decode_encode i, encode_decode⟩

/-- Settles O4: a placed word is written by the very next move. -/
theorem stepRunsDecodedCommand : Obligations.StepRunsDecodedCommand := by
  refine ⟨fun c s w rest hin => step_regWrite_cmd hin, fun c s nbits w i h => ?_⟩
  obtain ⟨-, rfl⟩ := decodeTableWord_eq_some_iff.1 h
  exact step_withFetchWord s nbits w

/-! ### `LOAD` -/

/-- The memory after the elements of a list are written to the cells from `n` on (R67). -/
def Memory.insertFrom {w : Nat} : Memory w → Nat → List (BitVec w) → Memory w
  | m, _, [] => m
  | m, n, b :: bs => Memory.insertFrom (Memory.insert m n b) (n + 1) bs

/-- Cells below the first one written keep their content. -/
theorem lookup_insertFrom_of_lt {w : Nat} (m : Memory w) {n x : Nat} (bits : List (BitVec w)) (h : x < n) :
    (Memory.insertFrom m n bits).lookup x = m.lookup x := by
  induction bits generalizing m n with
  | nil => rfl
  | cons b bs ih => rw [Memory.insertFrom, ih _ (Nat.lt_succ_of_lt h), lookup_insert_other m b h.ne]

/-- Element `k` is in cell `n + k`, and cells past the last element keep their content. -/
theorem lookup_insertFrom_add {w : Nat} (m : Memory w) (n k : Nat) (bits : List (BitVec w)) :
    (Memory.insertFrom m n bits).lookup (n + k) = bits[k]?.or (m.lookup (n + k)) := by
  induction bits generalizing m n k with
  | nil => rfl
  | cons b bs ih =>
    rw [Memory.insertFrom]
    cases k with
    | zero => exact (lookup_insertFrom_of_lt _ bs n.lt_succ_self).trans (lookup_insert_same m n b)
    | succ k =>
      rw [show n + (k + 1) = n + 1 + k by omega, ih, lookup_insert_other m b (by omega)]
      rfl

/-- Outside `RUN` the writes of a `LOAD` whose cells `AW` bits can number, and the write of `LEN` after them, take one
step each and change nothing but those cells and `LEN` (R67). -/
theorem stateAfter_putMoves {c : Config} (s : Block c) (n : Nat) (bits : List (BitVec c.symw)) (v : BitVec c.aw)
    (rest : List (HostMove c)) (hp : s.phase ≠ .run) (hfit : n + bits.length ≤ 2 ^ c.aw)
    (hin : s.inbox = putMoves c n bits ++ .regWrite .len v :: rest) :
    stateAfter (bits.length + 1) ⟨c, s⟩ = ⟨c, { taken s rest with
      seq := Memory.insertFrom s.seq n bits
      len := v
      draws := s.draws + (bits.length + 1) }⟩ := by
  induction bits generalizing s n with
  | nil =>
    rw [stateAfter, step_regWrite_rest hin (by decide) hp]
    rfl
  | cons b bs ih =>
    rw [List.length_cons] at hfit
    have hidx : (BitVec.ofNat c.aw n).toNat = n := by
      rw [BitVec.toNat_ofNat, Nat.mod_eq_of_lt (by omega)]
    have hdraws : s.draws + 1 + (bs.length + 1) = s.draws + (bs.length + 1 + 1) := by omega
    rw [List.length_cons, stateAfter, step_seqWrite_rest hin hp]
    refine (ih (memWrite (taken s _) (BitVec.ofNat c.aw n) b) (n + 1) hp (by omega) rfl).trans ?_
    rw [memWrite_seq, memWrite_draws, hidx, ← hdraws]
    rfl

/-- Settles O56: the moves of a `LOAD` are its cell writes from cell 0 on and the write of `LEN`. -/
theorem loadWritesSequence : Obligations.LoadWritesSequence := by
  intro c s bits rest hp hwf hin
  have hfit : bits.length < 2 ^ c.aw := of_decide_eq_true hwf
  rw [stmtMoves, List.append_assoc] at hin
  refine ⟨Memory.insertFrom s.seq 0 bits,
    stateAfter_putMoves s 0 bits (BitVec.ofNat c.aw bits.length) rest hp (by omega) hin, ?_, fun n => ?_⟩
  · exact (BitVec.toNat_ofNat _ _).trans (Nat.mod_eq_of_lt hfit)
  · have hcell := lookup_insertFrom_add s.seq 0 n bits
    rw [Nat.zero_add] at hcell
    simp only [cellAt, hcell, Option.getD_or]

/-! ### `WAIT` -/

/-- The last of the steps, on the block. -/
theorem stateAfter_succ_last {c : Config} {s u : Block c} {n : Nat} (h : stateAfter n ⟨c, s⟩ = ⟨c, u⟩) :
    stateAfter (n + 1) ⟨c, s⟩ = ⟨c, stepBlock u⟩ := by
  induction n generalizing s with
  | zero =>
    obtain rfl : s = u := by injection h
    exact stateAfter_succ 0 ⟨c, s⟩
  | succ n ih =>
    rw [stateAfter_succ] at h ⊢
    exact ih h

section Wait
variable {c : Config} {s : Block c} {rest : List (HostMove c)}

/-- Outside `RUN` a step takes the `WAIT` and does nothing else (R67). -/
theorem stepBlock_wait_rest (hin : s.inbox = .wait :: rest) (hp : s.phase ≠ .run) : stepBlock s = taken s rest := by
  rw [stepBlock_cons s .wait rest hin]
  exact if_neg hp

/-- In `RUN` a step under `WAIT` is a sample step, and the `WAIT` stays the next move (R67). -/
theorem stepBlock_wait_run (hin : s.inbox = .wait :: rest) (hp : s.phase = .run) :
    stepBlock s = sampleStep (advance s (.wait :: rest)) := by
  rw [stepBlock_cons s .wait rest hin]
  exact if_pos hp

end Wait

/-- A sample step leaves the host's moves (R81). -/
@[simp] theorem sampleStep_inbox {c : Config} (s : Block c) : (sampleStep s).inbox = s.inbox := by
  rw [sampleStep_eq, sampleWith_eq]

/-- `LEN * SPB` is part of the input. -/
theorem SameInput.runLength_eq {c : Config} {s t : Block c} (h : SameInput s t) : runLength t = runLength s := by
  obtain ⟨hspb, -, hlen, -⟩ := h
  rw [runLength, runLength, hspb, hlen]

/-- A run of `total` samples that the host waits for, with `k` samples emitted: in order, in `RUN` until the last
sample, and with the `WAIT` still pending. -/
structure WaitingRun {c : Config} (rest : List (HostMove c)) (total k : Nat) (u : Block c) : Prop where
  inv : RunInvariant u
  inbox : u.inbox = .wait :: rest
  length_eq : runLength u = total
  k_eq : u.k.toNat = k
  phase_eq : u.phase = if k = total then .done else .run

section WaitingRun
variable {c : Config} {s : Block c} {rest : List (HostMove c)} {total k : Nat}

theorem WaitingRun.of_run (h : RunInvariant s) (hin : s.inbox = .wait :: rest) (hp : s.phase = .run) :
    WaitingRun rest (runLength s) s.k.toNat s where
  inv := h
  inbox := hin
  length_eq := rfl
  k_eq := rfl
  phase_eq := by rw [hp, if_neg (h.running hp).k_lt_runLength.ne]

theorem WaitingRun.run_of_lt (h : WaitingRun rest total k s) (hk : k < total) : s.phase = .run := by
  rw [h.phase_eq, if_neg hk.ne]

/-- Before its last sample, a step takes the run on by one sample. -/
theorem WaitingRun.after_step (h : WaitingRun rest total k s) (hk : k < total) :
    WaitingRun rest total (k + 1) (stepBlock s) := by
  have hp := h.run_of_lt hk
  have ok : RunningOk (advance s (.wait :: rest)) := (h.inv.of_advance _).running hp
  have hdone := ok.done_iff hp
  rw [advance_k, h.k_eq, show runLength (advance s (.wait :: rest)) = total from h.length_eq] at hdone
  rw [stepBlock_wait_run h.inbox hp]
  constructor
  case inv => exact runInvariant_sampleStep ok hp
  case inbox => exact sampleStep_inbox _
  case length_eq => rw [(sameInput_sampleStep _).runLength_eq]; exact h.length_eq
  case k_eq => rw [sampleStep_k, ok.k_succ, advance_k, h.k_eq]
  case phase_eq =>
    by_cases hlast : k + 1 = total
    · rw [if_pos hlast, hdone.2 hlast]
    · rw [if_neg hlast]
      cases ok.sampleMove hp with
      | inBlock hj phase i j => exact phase
      | nextBlock hj hi phase i j => exact phase
      | finish hj hi phase i j => exact absurd (hdone.1 phase) hlast

/-- As many steps as samples are left take the run on by one sample each. -/
theorem WaitingRun.after_steps (h : WaitingRun rest total k s) (n : Nat) (hn : k + n ≤ total) :
    ∃ u : Block c, stateAfter n ⟨c, s⟩ = ⟨c, u⟩ ∧ WaitingRun rest total (k + n) u := by
  induction n with
  | zero => exact ⟨s, rfl, h⟩
  | succ n ih =>
    obtain ⟨u, hu, hwait⟩ := ih (by omega)
    exact ⟨stepBlock u, stateAfter_succ_last hu, hwait.after_step hn⟩

end WaitingRun

/-- Settles O57: the waiting run takes a sample at each step, and the first step in `DONE`, which is
the model's (log 2), takes the `WAIT`. -/
theorem waitRunsToTheEnd : Obligations.WaitRunsToTheEnd := by
  intro c s rest hinv hin
  refine ⟨fun hp => by rw [step_eq, stepBlock_wait_rest hin hp], fun hp => ?_⟩
  have hrun := WaitingRun.of_run hinv hin hp
  have hk := (hinv.running hp).k_lt_runLength
  obtain ⟨u, hu, hend⟩ := hrun.after_steps (runLength s - s.k.toNat) (by omega)
  have hdone : u.phase = .done := by rw [hend.phase_eq, if_pos (by omega)]
  have hlast : stepBlock u = taken u rest := stepBlock_wait_rest hend.inbox (by simp [hdone])
  refine ⟨fun n hn => ?_, ⟨u, hu, hdone, hend.inbox⟩, stepBlock u, stateAfter_succ_last hu, ?_, ?_⟩
  · obtain ⟨v, hv, hwait⟩ := hrun.after_steps n (by omega)
    exact ⟨v, hv, hwait.run_of_lt (by omega), hwait.inbox⟩
  · rw [hlast]; exact hdone
  · rw [hlast]; rfl

end Sys2Proof.Machine
end

section
/-! PROOFS. The statements about the timebase and the sequencer (spec/40_timebase_gen.md): the start step and the
sample step, the bounds of the position, and the run that the host leaves to the sequencer, whole. -/

namespace Sys2Proof.Machine

/-! ### The start step and the sample step -/

/-- An operation is decoded from its own word and from no other (R63). -/
theorem decode_eq_iff {w : CmdWord} {i : Instr} : decode w = i ↔ w = encode i :=
  ⟨fun h => by rw [← h, encode_decode], fun h => by rw [h, decode_encode]⟩

/-- The bookkeeping of a step validates like the state it found. -/
@[simp] theorem validate_taken {c : Config} (s : Block c) (rest : List (HostMove c)) :
    validate (taken s rest) = validate s := validate_advance s rest

/-- Outside `RUN` an operation answers its start step (R65, R80). -/
theorem exec_rest {c : Config} {s : Block c} (i : Instr) (hp : s.phase ≠ .run) :
    exec i ⟨c, s⟩ = .next ⟨c, startStep s (encode i)⟩ := by
  rw [exec_eq, issueCommand, if_neg hp]

/-- With a valid input the start step leaves an accepted run (R80). -/
theorem startStep_accepted {c : Config} {s : Block c} (i : Instr) (hv : validate s = 0#4) :
    startStep s (encode i) = startedRun i s := by
  rw [startStep_eq, hv, if_pos rfl, startedRun]

/-- Settles O6: the start step with an empty cause mask. -/
theorem acceptedStartCompletes : Obligations.AcceptedStartCompletes := by
  intro i c s hp hv
  rw [exec_rest i hp, startStep_accepted i hv, startedRun]

/-- Settles O5: outside `RUN` the move is the start step, which shows no event. -/
theorem startStepEffect : Obligations.StartStepEffect := by
  intro c s w rest hin hp
  have hstart : moveResult (taken s rest) (.regWrite .cmd w) = startStep (taken s rest) w := if_neg hp
  refine ⟨startStep (taken s rest) w, by rw [step_of_inbox hin, hstart], ?_, ?_, ?_⟩
  · exact samplesOf_of_none _ (startStep_out _ w)
  · rw [outValid, startStep_out]
    rfl
  · rw [startStep_eq, validate_taken, ite_not]

section Turn
variable {c : Config} {s : Block c}

/-- With no host move waiting a step is a turn of the sequencer, in `RUN` its sample step (R49, R81). -/
theorem stepBlock_turn_run (hin : s.inbox = []) (hp : s.phase = .run) : stepBlock s = sampleStep (taken s []) := by
  rw [stepBlock_nil s hin]
  exact sequencerTurn_run (taken s []) hp

/-- In the other phases the turn keeps all state (R82, R156). -/
theorem stepBlock_turn_rest (hin : s.inbox = []) (hp : s.phase ≠ .run) : stepBlock s = taken s [] := by
  rw [stepBlock_nil s hin]
  exact sequencerTurn_rest (taken s []) hp

end Turn

/-- Settles O16: outside `RUN` a turn, a `skip` and a `WAIT` are the bookkeeping alone; that they answer a next state
is the model's choice (log 10). -/
theorem noEnabledStepOutsideRun : Obligations.NoEnabledStepOutsideRun := by
  intro c s hp
  refine ⟨fun hin => by rw [step_eq, stepBlock_turn_rest hin hp], fun rest hin => ?_⟩
  rcases hin with hin | hin
  · have hskip : moveResult (taken s rest) .skip = taken s rest := if_neg hp
    rw [step_of_inbox hin, hskip]
  · rw [step_eq, stepBlock_wait_rest hin hp]

/-- R81's latch, with the operation told by its code. -/
theorem latchNext_eq_by_code {c : Config} (s : Block c) :
    latchNext s = if s.op = 0b10#2 ∧ s.j = 0#c.sw then s.level ^^^ seqBitAt s s.i.toNat else s.level := by
  simp only [latchNext, decode_eq_iff]
  rfl

/-- R81's level, with the operation told by its code and `MID` by numbers. -/
theorem lvl_decode_eq_by_code {w : Nat} (op : CmdWord) (b lev : Bit) (j spb : BitVec w) :
    lvl (decode op) b j spb lev =
      if op = 0b10#2 then lev
      else if op = 0b11#2 then (if j.toNat < spb.toNat / 2 then b else 1#1 - b)
      else b := by
  have hmid : j < spb >>> 1 ↔ j.toNat < spb.toNat / 2 := by
    rw [BitVec.lt_def, BitVec.toNat_ushiftRight, Nat.shiftRight_one]
  rw [← encode_decode op]
  cases decode op with
  | gen => rfl
  | nrzl => rfl
  | nrzi => rfl
  | man => simp [lvl, encode, decode, hmid]

/-- Settles O14: a turn in `RUN` is the sample step, and no other step shows an event. Where the state breaks R30, its
wrapping arithmetic is the model's choice (log 7). -/
theorem sampleStepEffect : Obligations.SampleStepEffect := by
  refine ⟨fun c s hin hp => ?_, fun c s t hstep hout => ?_⟩
  · rw [step_eq, stepBlock_turn_run hin hp, sampleStep_eq, sampleWith_eq, latchNext_eq_by_code,
      lvl_decode_eq_by_code]
    simp only [taken, hp]
    rfl
  · obtain ⟨rest, hp, -⟩ := (step_effect hstep).sample_of_outValid hout
    exact hp

/-! ### The bounds of the position -/

/-- From 1 on, subtracting 1 does not wrap. -/
theorem toNat_sub_one_of_pos {w : Nat} {x : BitVec w} (h : 1 ≤ x.toNat) : (x - 1#w).toNat = x.toNat - 1 := by
  have hx := x.isLt
  have hone : (1#w).toNat = 1 := by rw [BitVec.toNat_ofNat, Nat.mod_eq_of_lt (by omega)]
  rw [BitVec.toNat_sub_of_le (by rwa [BitVec.le_def, hone]), hone]

/-- Settles O38: the split of `K` that a run in order keeps. -/
theorem positionIsSplitIndex : Obligations.PositionIsSplitIndex := by
  intro c s h hp
  obtain ⟨hi, hj⟩ := (h.running hp).split_k
  exact ⟨hi.symm, hj.symm⟩

/-- Settles O39: each counter stands below its bound, so neither its successor nor the bound's predecessor wraps. -/
theorem countersDoNotWrap : Obligations.CountersDoNotWrap := by
  intro c s h hp
  have ok := h.running hp
  have hj : s.j ≠ s.spb - 1#c.sw → s.j.toNat + 1 ≤ s.spb.toNat - 1 := fun hne => by
    have hlast := mt (eq_sub_one_iff_of_lt ok.j_lt).2 hne
    have hlt := ok.j_lt
    omega
  exact ⟨toNat_sub_one_of_pos ok.spb_pos, toNat_sub_one_of_pos ok.len_pos,
    fun hne => ⟨toNat_add_one_of_lt ok.j_lt, hj hne⟩, toNat_add_one_of_lt ok.i_lt, ok.i_lt, ok.k_succ,
    ok.k_lt_runLength, runLength_lt s⟩

/-! ### Any number of steps -/

/-- The state some steps on is `stepBlock` that many times. -/
theorem stateAfter_eq_iterate {c : Config} (n : Nat) (s : Block c) : stateAfter n ⟨c, s⟩ = ⟨c, stepBlock^[n] s⟩ := by
  induction n with
  | zero => rfl
  | succ n ih => rw [stateAfter_succ_last ih, Function.iterate_succ_apply']

/-- The trace of some steps and of some more is their traces one after the other. -/
theorem traceOf_add {c : Config} (m n : Nat) (s : Block c) :
    traceOf (m + n) ⟨c, s⟩ = traceOf m ⟨c, s⟩ ++ traceOf n ⟨c, stepBlock^[m] s⟩ := by
  induction m generalizing s with
  | zero => rw [Nat.zero_add]; rfl
  | succ m ih =>
    rw [Nat.add_right_comm, traceOf_succ, ih (stepBlock s), traceOf_succ, List.append_assoc]
    rfl

/-- One step more appends its event to the trace. -/
theorem traceOf_succ_last {c : Config} (n : Nat) (s : Block c) :
    traceOf (n + 1) ⟨c, s⟩ = traceOf n ⟨c, s⟩ ++ samplesOf (stepBlock^[n + 1] s) := by
  rw [traceOf_add, Function.iterate_succ_apply', traceOf_succ, traceOf, List.append_nil]

/-- With no host move waiting, a step brings none and keeps the input (R46). -/
theorem stepBlock_turn_input {c : Config} {s : Block c} (hin : s.inbox = []) :
    (stepBlock s).inbox = [] ∧ SameInput s (stepBlock s) := by
  by_cases hp : s.phase = .run
  · rw [stepBlock_turn_run hin hp]
    exact ⟨sampleStep_inbox (taken s []), sameInput_sampleStep (taken s [])⟩
  · rw [stepBlock_turn_rest hin hp]
    exact ⟨rfl, sameInput_quiet s [] none⟩

theorem SameInput.refl {c : Config} (s : Block c) : SameInput s s := ⟨rfl, rfl, rfl, fun _ => rfl⟩

theorem SameInput.trans {c : Config} {s t u : Block c} (h : SameInput s t) (h' : SameInput t u) : SameInput s u := by
  obtain ⟨hspb, hbitdur, hlen, hcell⟩ := h
  obtain ⟨hspb', hbitdur', hlen', hcell'⟩ := h'
  exact ⟨hspb'.trans hspb, hbitdur'.trans hbitdur, hlen'.trans hlen, fun n => (hcell' n).trans (hcell n)⟩

/-- As long as no host move waits, no number of steps changes the input (R46). -/
theorem iterate_turn_input {c : Config} {s : Block c} (hin : s.inbox = []) (n : Nat) :
    (stepBlock^[n] s).inbox = [] ∧ SameInput s (stepBlock^[n] s) := by
  induction n with
  | zero => exact ⟨hin, .refl s⟩
  | succ n ih =>
    obtain ⟨hin', hsame⟩ := ih
    obtain ⟨hnext, hkept⟩ := stepBlock_turn_input hin'
    rw [Function.iterate_succ_apply']
    exact ⟨hnext, hsame.trans hkept⟩

/-- Outside `RUN`, with no host move waiting, the block stays as it is for ever and shows no event (R82, R156). -/
theorem iterate_turn_rest {c : Config} {s : Block c} (hin : s.inbox = []) (hp : s.phase ≠ .run) (n : Nat) :
    SameRun s (stepBlock^[n] s) ∧ traceOf n ⟨c, s⟩ = [] := by
  induction n with
  | zero => exact ⟨⟨rfl, rfl, rfl, rfl, rfl, rfl, rfl⟩, rfl⟩
  | succ n ih =>
    obtain ⟨same, htrace⟩ := ih
    have hnext : stepBlock^[n + 1] s = taken (stepBlock^[n] s) [] := by
      rw [Function.iterate_succ_apply', stepBlock_turn_rest (iterate_turn_input hin n).1 (by rwa [same.phase])]
    refine ⟨?_, ?_⟩
    · rw [hnext]
      exact ⟨same.op, same.phase, same.errcause, same.i, same.j, same.k, same.level⟩
    · rw [traceOf_succ_last, htrace, hnext]
      rfl

/-! ### The accepted run, sample by sample -/

/-- In a run in order the sample step leaves `DONE` with the last sample and keeps `RUN` before it (R16, R82). -/
theorem RunningOk.phase_sampleStep {c : Config} {u : Block c} (ok : RunningOk u) (hp : u.phase = .run) :
    (sampleStep u).phase = if u.k.toNat + 1 = runLength u then .done else .run := by
  have hdone := ok.done_iff hp
  by_cases hlast : u.k.toNat + 1 = runLength u
  · rw [if_pos hlast, hdone.2 hlast]
  · rw [if_neg hlast]
    cases ok.sampleMove hp with
    | inBlock hj phase i j => exact phase
    | nextBlock hj hi phase i j => exact phase
    | finish hj hi phase i j => exact absurd (hdone.1 phase) hlast

/-- The last sample step of a run leaves `lev` of the last bit in the latch for `NRZI`, and else its 0 (R87). -/
theorem LatchInvariant.level_of_done {c : Config} {u : Block c} (hl : LatchInvariant u) (ok : RunningOk u)
    (hp : u.phase = .run) (hdone : (sampleStep u).phase = .done) : (sampleStep u).level =
      if decode u.op = .nrzi then levAfter (seqBitAt u) u.len.toNat else 0#1 := by
  rw [sampleStep_level]
  by_cases hop : decode u.op = .nrzi
  · rw [if_pos hop, hl.latchNext_eq hp hop]
    cases ok.sampleMove hp with
    | inBlock hj phase i j => exact absurd (phase.symm.trans hdone) (by decide)
    | nextBlock hj hi phase i j => exact absurd (phase.symm.trans hdone) (by decide)
    | finish hj hi phase i j => rw [hi]
  · rw [if_neg hop, latchNext_of_ne_nrzi hop, (hl hp).2 hop]

/-- A finished run that is left alone, with its input, stays finished (R88). -/
theorem RunFinished.of_sameRun {c : Config} {s t : Block c} (h : RunFinished s) (same : SameRun s t)
    (hinput : SameInput s t) : RunFinished t := by
  obtain ⟨hphase, hi, hj, hk, herr⟩ := h
  have hlength := hinput.runLength_eq
  obtain ⟨-, -, hlen, -⟩ := hinput
  exact ⟨same.phase.trans hphase, by rw [same.i, hlen, hi], by rw [same.j, hj], by rw [same.k, hlength, hk],
    same.errcause.trans herr⟩

/-- The run of operation `i` that was accepted in `s` and left to the sequencer, before its sample number `k`: in order,
with the latch that R111 asks for, on the input it started with. -/
structure RunAt {c : Config} (i : Instr) (s : Block c) (k : Nat) (u : Block c) : Prop where
  inbox : u.inbox = []
  input : SameInput s u
  phase : u.phase = .run
  op : decode u.op = i
  inv : RunInvariant u
  latch : LatchInvariant u
  k_eq : u.k.toNat = k

/-- How the last sample leaves that run (R87). -/
structure RunDone {c : Config} (i : Instr) (s : Block c) (u : Block c) : Prop where
  inbox : u.inbox = []
  input : SameInput s u
  op : decode u.op = i
  finished : RunFinished u
  level : u.level = if i = .nrzi then levAfter (seqBitAt s) s.len.toNat else 0#1

section RunAt
variable {c : Config} {i : Instr} {s u : Block c} {k : Nat}

/-- An accepted command stands before its sample number 0 (R80). -/
theorem Startable.runAt (h : Startable s) (i : Instr) : RunAt i s 0 (startedRun i s) := by
  obtain ⟨-, hin, hv⟩ := h
  refine ⟨hin, ⟨rfl, rfl, rfl, fun _ => rfl⟩, rfl, decode_encode i, ?_, ?_, by simp [startedRun]⟩
  · rw [← startStep_accepted i hv]
    exact runInvariant_startStep s _
  · rw [← startStep_accepted i hv]
    exact latchInvariant_startStep s _

/-- The sample step of a run is in order: the position is R30's. -/
theorem RunAt.ok (h : RunAt i s k u) : RunningOk (taken u []) := (h.inv.of_advance []).running h.phase

theorem RunAt.stepBlock_eq (h : RunAt i s k u) : stepBlock u = sampleStep (taken u []) :=
  stepBlock_turn_run h.inbox h.phase

/-- Before sample number `k` the step emits event number `k` of the waveform (R87). -/
theorem RunAt.samplesOf_stepBlock (h : RunAt i s k u) :
    samplesOf (stepBlock u) = [(k, wave i s.spb.toNat (seqBitAt s) k)] := by
  have hwave := h.ok.lvl_eq_wave (h.latch.of_advance []) h.phase
  obtain ⟨hspb, -⟩ := h.input
  rw [h.stepBlock_eq, samplesOf_of_some _ _ (sampleStep_out _), hwave]
  simp only [taken, h.k_eq, h.op, hspb]
  rw [← h.input.seqBitAt_eq]
  rfl

/-- The step ends the run exactly if its sample is number `LEN * SPB - 1`. -/
theorem RunAt.phase_stepBlock (h : RunAt i s k u) :
    (stepBlock u).phase = if k + 1 = runLength s then .done else .run := by
  rw [h.stepBlock_eq, h.ok.phase_sampleStep h.phase, show (taken u []).k.toNat = k from h.k_eq,
    show runLength (taken u []) = runLength s from h.input.runLength_eq]

theorem RunAt.decode_op_stepBlock (h : RunAt i s k u) : decode (stepBlock u).op = i := by
  rw [h.stepBlock_eq, sampleStep_op]
  exact h.op

/-- Before the last sample the run goes on. -/
theorem RunAt.after_step (h : RunAt i s k u) (hk : k + 1 < runLength s) : RunAt i s (k + 1) (stepBlock u) := by
  obtain ⟨hin, hinput⟩ := stepBlock_turn_input h.inbox
  refine ⟨hin, h.input.trans hinput, ?_, h.decode_op_stepBlock, ?_, ?_, ?_⟩
  · rw [h.phase_stepBlock, if_neg hk.ne]
  · rw [h.stepBlock_eq]
    exact runInvariant_sampleStep h.ok h.phase
  · rw [h.stepBlock_eq]
    exact latchInvariant_sampleStep h.ok (h.latch.of_advance []) h.phase
  · rw [h.stepBlock_eq, sampleStep_k, h.ok.k_succ]
    exact congrArg (· + 1) h.k_eq

/-- After the last sample the run is done. -/
theorem RunAt.after_last_step (h : RunAt i s k u) (hk : k + 1 = runLength s) : RunDone i s (stepBlock u) := by
  obtain ⟨hin, hinput⟩ := stepBlock_turn_input h.inbox
  have hdone : (sampleStep (taken u [])).phase = .done := by
    rw [← h.stepBlock_eq, h.phase_stepBlock, if_pos hk]
  have hlevel := (h.latch.of_advance []).level_of_done h.ok h.phase hdone
  obtain ⟨-, -, hlen, -⟩ := h.input
  refine ⟨hin, h.input.trans hinput, h.decode_op_stepBlock, ?_, ?_⟩
  · rw [h.stepBlock_eq]
    exact h.ok.runFinished h.phase hdone
  · rw [h.stepBlock_eq, ← h.input.seqBitAt_eq, ← hlen, ← h.op]
    exact hlevel

end RunAt

section Startable
variable {c : Config} {s : Block c}

/-- Outside `RUN` and with a valid input, the command answers the accepted run (R80). -/
theorem Startable.exec_accepted (h : Startable s) (i : Instr) : exec i ⟨c, s⟩ = .next ⟨c, startedRun i s⟩ := by
  obtain ⟨hp, -, hv⟩ := h
  rw [exec_rest i hp, startStep_accepted i hv]

/-- An accepted run has a sample to emit: neither `LEN` nor `SPB` is 0 (R82). -/
theorem Startable.runLength_pos (h : Startable s) : 0 < runLength s := by
  obtain ⟨-, -, hv⟩ := h
  obtain ⟨hlen, hspb, -⟩ := (validate_eq_zero_iff_input s).1 hv
  exact Nat.mul_pos hlen hspb

/-- After `n` samples the run stands before its sample number `n`. -/
theorem Startable.runAt_iterate (h : Startable s) (i : Instr) {n : Nat} (hn : n < runLength s) :
    RunAt i s n (stepBlock^[n] (startedRun i s)) := by
  induction n with
  | zero => exact h.runAt i
  | succ n ih =>
    rw [Function.iterate_succ_apply']
    exact (ih (by omega)).after_step hn

/-- After all its samples the run is done. -/
theorem Startable.runDone (h : Startable s) (i : Instr) :
    RunDone i s (stepBlock^[runLength s] (startedRun i s)) := by
  obtain ⟨n, hn⟩ := Nat.exists_eq_add_one.2 h.runLength_pos
  rw [hn, Function.iterate_succ_apply']
  exact (h.runAt_iterate i (by omega)).after_last_step hn.symm

/-- Up to its end the run emits the waveform, one event a step (R87). -/
theorem Startable.traceOf_of_le (h : Startable s) (i : Instr) {n : Nat} (hn : n ≤ runLength s) :
    traceOf n ⟨c, startedRun i s⟩ = (List.range n).map fun k => (k, wave i s.spb.toNat (seqBitAt s) k) := by
  induction n with
  | zero => rfl
  | succ n ih =>
    rw [traceOf_succ_last, ih (by omega), Function.iterate_succ_apply',
      (h.runAt_iterate i hn).samplesOf_stepBlock, List.range_succ, List.map_append]
    rfl

/-- The whole trace of an accepted run is the waveform of its input (R87). -/
theorem Startable.runTrace_eq (h : Startable s) (i : Instr) :
    runTrace i s = waveform i s.spb.toNat s.len.toNat (seqBitAt s) :=
  h.traceOf_of_le i le_rfl

/-- Event number `k` of an accepted run carries index `k` and the waveform's level (R87). -/
theorem Startable.runTrace_getElem? (h : Startable s) (i : Instr) {k : Nat} (hk : k < runLength s) :
    (runTrace i s)[k]? = some (k, wave i s.spb.toNat (seqBitAt s) k) := by
  rw [h.runTrace_eq, waveform, ← runLength, List.getElem?_map, List.getElem?_range hk]
  rfl

theorem Startable.levelAt_runTrace (h : Startable s) (i : Instr) {k : Nat} (hk : k < runLength s) :
    levelAt (runTrace i s) k = some (wave i s.spb.toNat (seqBitAt s) k) := by
  rw [levelAt, h.runTrace_getElem? i hk]
  rfl

/-- The machine at the end of an accepted run has the done block. -/
theorem runEnd_eq (i : Instr) (s : Block c) : runEnd i s = ⟨c, stepBlock^[runLength s] (startedRun i s)⟩ :=
  stateAfter_eq_iterate (runLength s) (startedRun i s)

/-- Once the run is done, it stays finished and nothing follows (R88). -/
theorem Startable.after_end (h : Startable s) (i : Instr) (m : Nat) :
    traceOf (runLength s + m) ⟨c, startedRun i s⟩ = runTrace i s ∧
      RunFinished (stepBlock^[runLength s + m] (startedRun i s)) := by
  have hend := h.runDone i
  have ⟨hphase, _⟩ := hend.finished
  have hrest : (stepBlock^[runLength s] (startedRun i s)).phase ≠ .run := by rw [hphase]; decide
  obtain ⟨same, htrace⟩ := iterate_turn_rest hend.inbox hrest m
  refine ⟨?_, ?_⟩
  · rw [traceOf_add, htrace, List.append_nil, runTrace]
  · rw [Nat.add_comm, Function.iterate_add_apply]
    exact hend.finished.of_sameRun same (iterate_turn_input hend.inbox m).2

/-- What an accepted run shows after any number of steps: as much of the waveform as there was time for, `RUN` until
all of it is out and `DONE` from then on, and no cause (R87, R184). -/
theorem Startable.result (h : Startable s) (i : Instr) (n : Nat) :
    traceOf n ⟨c, startedRun i s⟩ =
        (List.range (min n (runLength s))).map (fun k => (k, wave i s.spb.toNat (seqBitAt s) k)) ∧
      (stepBlock^[n] (startedRun i s)).phase = (if n < runLength s then .run else .done) ∧
      (stepBlock^[n] (startedRun i s)).errcause = 0#4 := by
  by_cases hn : n < runLength s
  · have hat := h.runAt_iterate i hn
    rw [Nat.min_eq_left hn.le, if_pos hn]
    exact ⟨h.traceOf_of_le i hn.le, hat.phase, (hat.inv.running hat.phase).errcause_zero⟩
  · obtain ⟨m, rfl⟩ := Nat.exists_eq_add_of_le (Nat.not_lt.1 hn)
    obtain ⟨htrace, hphase, -, -, -, herr⟩ := h.after_end i m
    rw [Nat.min_eq_right (Nat.le_add_right _ _), if_neg hn]
    exact ⟨htrace.trans (h.runTrace_eq i), hphase, herr⟩

/-- A rejected command waits in `ERR`, at the origin, with its cause and an empty trace (R87, R144). -/
theorem iterate_rejected (i : Instr) (hin : s.inbox = []) (hv : validate s ≠ 0#4) (n : Nat) :
    traceOf n ⟨c, startStep s (encode i)⟩ = [] ∧
      (stepBlock^[n] (startStep s (encode i))).phase = .err ∧
      (stepBlock^[n] (startStep s (encode i))).errcause = validate s ∧
      (stepBlock^[n] (startStep s (encode i))).k = 0#c.kw := by
  have hphase : (startStep s (encode i)).phase = .err := by rw [startStep_phase, if_neg hv]
  have hin' : (startStep s (encode i)).inbox = [] := by rw [startStep_inbox, hin]
  obtain ⟨same, htrace⟩ := iterate_turn_rest hin' (by rw [hphase]; decide) n
  exact ⟨htrace, same.phase.trans hphase, by rw [same.errcause, startStep_errcause], by rw [same.k, startStep_k]⟩

end Startable

/-- Settles O42: the trace and the end of an accepted run, and the rejected command that stays in `ERR`. -/
theorem runIsWaveform : Obligations.RunIsWaveform := by
  refine ⟨fun i c s h => ?_, fun i c s hp hin hv => ?_⟩
  · obtain ⟨hin, hinput, hop, ⟨hphase, hi, hj, hk, herr⟩, hlevel⟩ := h.runDone i
    have hlen := hinput.runLength_eq
    have ⟨_, _, elen, _⟩ := hinput
    refine ⟨startedRun i s, h.exec_accepted i, h.runTrace_eq i, _, stateAfter_eq_iterate _ _, hphase, ?_, ?_, ?_, herr,
      decode_eq_iff.1 hop, hinput, hlevel⟩
    · exact BitVec.eq_of_toNat_eq (by rw [hi, elen])
    · exact BitVec.eq_of_toNat_eq (by rw [hj, BitVec.toNat_zero])
    · rw [hk, hlen, runLength]
  · refine ⟨startStep s (encode i), exec_rest i hp, ?_, startStep_errcause s _, fun n => ?_⟩
    · rw [startStep_phase, if_neg hv]
    · obtain ⟨htrace, hend⟩ := iterate_rejected i hin hv n
      exact ⟨htrace, _, stateAfter_eq_iterate n _, hend⟩

/-! ### What the result of a run depends on -/

/-- A register is 0 exactly when its number is. -/
theorem decide_eq_zero_eq {w : Nat} (x : BitVec w) : decide (x = BitVec.ofNat w 0) = decide (x.toNat = 0) := by
  simp [BitVec.toNat_eq]

section Congr
variable {c₁ c₂ : Config} {s₁ : Block c₁} {s₂ : Block c₂}

/-- The cause mask depends on the numbers in `SPB`, `BITDUR` and `LEN` and in the cells below `LEN` alone, across
parameters (R142). -/
theorem validate_congr (hspb : s₁.spb.toNat = s₂.spb.toNat) (hbitdur : s₁.bitdur.toNat = s₂.bitdur.toNat)
    (hlen : s₁.len.toNat = s₂.len.toNat)
    (hcell : ∀ n, n < s₁.len.toNat → (cellAt s₁ n).toNat = (cellAt s₂ n).toNat) : validate s₁ = validate s₂ := by
  have hsymbol : causeSymbol s₁ = causeSymbol s₂ := by
    rw [Bool.eq_iff_iff, causeSymbol, causeSymbol, anyNonBinary_iff, anyNonBinary_iff, ← hlen]
    exact exists_congr fun n => and_congr_right fun hn => by rw [hcell n hn]
  simp only [validate, causeSpb, causeBitdur, causeEmpty, decide_eq_zero_eq, hspb, hbitdur, hlen, hsymbol]

/-- A sequence bit depends on the number in its cell alone. -/
theorem seqBitAt_congr {n : Nat} (h : (cellAt s₁ n).toNat = (cellAt s₂ n).toNat) :
    seqBitAt s₁ n = seqBitAt s₂ n :=
  BitVec.eq_of_toNat_eq (by simp only [seqBitAt, BitVec.extractLsb'_toNat, h])

end Congr

/-- The latch after `n` bits depends on these bits alone. -/
theorem levAfter_congr {f g : Nat → Bit} {n : Nat} (h : ∀ m, m < n → f m = g m) : levAfter f n = levAfter g n := by
  induction n with
  | zero => rfl
  | succ n ih => rw [levAfter, levAfter, ih fun m hm => h m (by omega), h n n.lt_succ_self]

/-- The waveform of `n` bits depends on these bits alone (R87, R89). -/
theorem wave_congr (i : Instr) {f g : Nat → Bit} {spb n k : Nat} (h : ∀ m, m < n → f m = g m) (hk : k < n * spb) :
    wave i spb f k = wave i spb g k := by
  have hblock : k / spb < n := Nat.div_lt_of_lt_mul (by rwa [Nat.mul_comm])
  have hbit := h _ hblock
  cases i with
  | gen => exact hbit
  | nrzl => exact hbit
  | nrzi => exact levAfter_congr fun m hm => h m (by omega)
  | man => simp only [wave, hbit]

/-- Settles O44: both commands are accepted or both rejected, and what either run shows is said by the common input. -/
theorem runIsPure : Obligations.RunIsPure := by
  intro i c₁ c₂ s₁ s₂ hp₁ hp₂ hin₁ hin₂ hspb hbitdur hlen hcell
  have hvalid := validate_congr hspb hbitdur hlen hcell
  by_cases hv : validate s₁ = 0#4
  · have h₁ : Startable s₁ := ⟨hp₁, hin₁, hv⟩
    have h₂ : Startable s₂ := ⟨hp₂, hin₂, hvalid ▸ hv⟩
    have hlength : runLength s₁ = runLength s₂ := by rw [runLength, runLength, hlen, hspb]
    refine ⟨_, _, h₁.exec_accepted i, h₂.exec_accepted i, fun n => ?_⟩
    obtain ⟨htrace₁, hphase₁, herr₁⟩ := h₁.result i n
    obtain ⟨htrace₂, hphase₂, herr₂⟩ := h₂.result i n
    rw [stateAfter_eq_iterate, stateAfter_eq_iterate, hphase₁, hphase₂, herr₁, herr₂, hlength]
    refine ⟨?_, rfl, rfl⟩
    rw [htrace₁, htrace₂, hlength, ← hspb]
    refine List.map_congr_left fun k hk => ?_
    have hk' : k < runLength s₁ := by
      have := List.mem_range.1 hk
      omega
    rw [wave_congr i (fun m hm => seqBitAt_congr (hcell m hm)) hk']
  · refine ⟨_, _, exec_rest i hp₁, exec_rest i hp₂, fun n => ?_⟩
    obtain ⟨htrace₁, hphase₁, herr₁, -⟩ := iterate_rejected i hin₁ hv n
    obtain ⟨htrace₂, hphase₂, herr₂, -⟩ := iterate_rejected i hin₂ (hvalid ▸ hv) n
    rw [stateAfter_eq_iterate, stateAfter_eq_iterate, hphase₁, hphase₂, herr₁, herr₂, htrace₁, htrace₂]
    exact ⟨rfl, rfl, hvalid⟩

/-! ### The time axis and the shortest run -/

/-- The time axis depends on `SPB` and `BITDUR` alone (R84 (f)). -/
theorem timeAt_congr {c : Config} {s t : Block c} (hspb : t.spb = s.spb) (hbitdur : t.bitdur = s.bitdur) (k : Nat) :
    timeAt t k = timeAt s k := by
  rw [timeAt, timeAt, bitDuration, bitDuration, hspb, hbitdur]

/-- Two times are as far apart as their indices, in units of `T / S` (R83). -/
theorem timeAt_add {c : Config} (s : Block c) (k m : Nat) :
    timeAt s (k + m) = timeAt s k + (m : ℚ) * (bitDuration s / (s.spb.toNat : ℚ)) := by
  rw [timeAt, timeAt, Nat.cast_add, add_mul]

/-- Bit `n` begins at `n * T` (R84 (e)). -/
theorem timeAt_block {c : Config} {s : Block c} (hspb : 1 ≤ s.spb.toNat) (n : Nat) :
    timeAt s (n * s.spb.toNat) = (n : ℚ) * bitDuration s := by
  have hne : (s.spb.toNat : ℚ) ≠ 0 := Nat.cast_ne_zero.2 (by omega)
  rw [timeAt, Nat.cast_mul, mul_assoc, mul_div_cancel₀ _ hne]

/-- With a valid input the step of the time axis is positive (R84 (c)). -/
theorem timeStep_pos {c : Config} {s : Block c} (hspb : 1 ≤ s.spb.toNat) (hbitdur : 1 ≤ s.bitdur.toNat) :
    0 < bitDuration s / (s.spb.toNat : ℚ) :=
  div_pos (mul_pos (Nat.cast_pos.2 hbitdur) c.tick_pos) (Nat.cast_pos.2 hspb)

/-- With a positive step the times rise strictly with the index (R84 (c)). -/
theorem timeAt_strictMono {c : Config} {s : Block c} (hpos : 0 < bitDuration s / (s.spb.toNat : ℚ)) :
    StrictMono (timeAt s) :=
  fun k m hlt => by
    rw [timeAt, timeAt]
    exact mul_lt_mul_of_pos_right (Nat.cast_lt.2 hlt) hpos

/-- The events of a waveform carry the indices in order (R84 (a)). -/
theorem waveform_map_fst (i : Instr) (spb n : Nat) (seq : Nat → Bit) :
    (waveform i spb n seq).map Prod.fst = List.range (n * spb) := by
  rw [waveform, List.map_map]
  exact List.map_id _

/-- Settles O53: the indices are those of the waveform, the input stays, and the rest is arithmetic of `k * (T / S)`. -/
theorem timeAxisProperties : Obligations.TimeAxisProperties := by
  intro i c s h
  have ⟨_, hin, hv⟩ := h
  obtain ⟨-, hspb, hbitdur, -⟩ := (validate_eq_zero_iff_input s).1 hv
  have hpos := timeStep_pos hspb hbitdur
  have hend := timeAt_block hspb s.len.toNat
  refine ⟨h.exec_accepted i, ?_, fun n k => ?_, ?_, fun k => ?_, hpos, fun k => ?_, timeAt_block hspb, fun k hk => ?_,
    fun s' => timeAt_congr, ?_⟩
  · rw [h.runTrace_eq, waveform_map_fst]
  · obtain ⟨-, espb, ebitdur, -⟩ := iterate_turn_input (s := startedRun i s) hin n
    rw [stateAfter_eq_iterate]
    exact timeAt_congr espb ebitdur k
  · rw [timeAt, Nat.cast_zero, zero_mul]
  · rw [timeAt_add, Nat.cast_one, one_mul, add_sub_cancel_left]
  · exact mul_nonneg (Nat.cast_nonneg k) hpos.le
  · rw [← hend]
    exact timeAt_strictMono hpos hk
  · have hlast := timeAt_add s (runLength s - 1) 1
    rw [Nat.sub_add_cancel h.runLength_pos, runLength, hend, Nat.cast_one, one_mul] at hlast
    exact eq_sub_of_add_eq hlast.symm

/-- In block 0 every operation's level is the bit, but for the complement in the second half of a `MAN` block. -/
theorem wave_first_block (i : Instr) (seq : Nat → Bit) {spb k : Nat} (hk : k < spb) :
    wave i spb seq k = if i = .man ∧ spb / 2 ≤ k then 1#1 - seq 0 else seq 0 := by
  have hdiv := Nat.div_eq_of_lt hk
  cases i with
  | gen => simp [wave, hdiv]
  | nrzl => simp [wave, hdiv]
  | nrzi => simp [wave, hdiv, levAfter]
  | man =>
    have hmod := Nat.mod_eq_of_lt hk
    by_cases hhalf : spb / 2 ≤ k
    · simp [wave, hdiv, hmod, hhalf, Nat.not_lt.2 hhalf]
    · simp [wave, hdiv, hmod, hhalf, Nat.not_le.1 hhalf]

/-- Settles O54: the waveform's one block, and the `I = LEN` of a finished run. -/
theorem lengthOneIsOneBlock : Obligations.LengthOneIsOneBlock := by
  intro i c s h hone
  have hlength : runLength s = s.spb.toNat := by rw [runLength, hone, Nat.one_mul]
  have hindices : (runTrace i s).map Prod.fst = List.range s.spb.toNat := by
    rw [h.runTrace_eq, waveform_map_fst, hone, Nat.one_mul]
  refine ⟨h.exec_accepted i, ?_, hindices, fun k hk => ?_, ?_⟩
  · simpa using congrArg List.length hindices
  · rw [h.levelAt_runTrace i (hlength ▸ hk), wave_first_block i _ hk]
  · have hend := h.runDone i
    obtain ⟨-, hi, -⟩ := hend.finished
    obtain ⟨-, -, hlen, -⟩ := hend.input
    rw [runEnd_eq, hi, hlen, hone]

end Sys2Proof.Machine
end

section
/-! PROOFS. The statements about the bit replicator (spec/41_nrzl.md): `NRZL` runs beside `GEN` step by step, and its
levels change exactly between blocks of different bits. -/

namespace Sys2Proof.Machine

/-! ### `NRZL` beside `GEN` -/

/-- From a `GEN` state, the sample step that `NRZL` would take is the same but for `OP` (R85, R100). -/
theorem sampleStep_nrzl_of_gen {c : Config} {s : Block c} (hop : s.op = encode .gen) :
    sampleStep { s with op := encode .nrzl } = { sampleStep s with op := encode .nrzl } := by
  have hgen : sampleStep s = sampleWith s s.level (inputBit s) := by
    simp only [sampleStep, hop, decode_encode]
    rfl
  have hnrzl : sampleStep { s with op := encode .nrzl } =
      sampleWith { s with op := encode .nrzl } s.level (inputBit s) := rfl
  rw [hgen, hnrzl, sampleWith_eq, sampleWith_eq]

/-- A block left to the sequencer with the code of `GEN` in `OP`, and the same block with the code of `NRZL`. -/
structure GenNrzlPair {c : Config} (u v : Block c) : Prop where
  inbox : u.inbox = []
  op : u.op = encode .gen
  nrzl : v = { u with op := encode .nrzl }

section GenNrzlPair
variable {c : Config} {s u v : Block c}

/-- The two start steps leave such a pair, whether the input is valid or not (R80). -/
theorem GenNrzlPair.of_startStep (hin : s.inbox = []) :
    GenNrzlPair (startStep s (encode .gen)) (startStep s (encode .nrzl)) where
  inbox := (startStep_inbox s _).trans hin
  op := startStep_op s _
  nrzl := by rw [startStep_eq, startStep_eq]

/-- A step takes such a pair to such a pair: both blocks take a sample, or neither. -/
theorem GenNrzlPair.after_step (h : GenNrzlPair u v) : GenNrzlPair (stepBlock u) (stepBlock v) := by
  obtain ⟨hin, hop, rfl⟩ := h
  refine ⟨(stepBlock_turn_input hin).1, ?_, ?_⟩ <;> by_cases hp : u.phase = .run
  · rw [stepBlock_turn_run hin hp, sampleStep_op]
    exact hop
  · rw [stepBlock_turn_rest hin hp]
    exact hop
  · rw [stepBlock_turn_run hin hp, ← sampleStep_nrzl_of_gen (s := taken u []) hop]
    exact stepBlock_turn_run hin hp
  · rw [stepBlock_turn_rest hin hp]
    exact stepBlock_turn_rest hin hp

theorem GenNrzlPair.iterate (h : GenNrzlPair u v) (n : Nat) : GenNrzlPair (stepBlock^[n] u) (stepBlock^[n] v) := by
  induction n with
  | zero => exact h
  | succ n ih =>
    rw [Function.iterate_succ_apply', Function.iterate_succ_apply']
    exact ih.after_step

/-- The two blocks show the same event. -/
theorem GenNrzlPair.samplesOf_eq (h : GenNrzlPair u v) : samplesOf u = samplesOf v := by
  rw [h.nrzl]
  rfl

/-- The two blocks give the same trace, event by event (R101). -/
theorem GenNrzlPair.traceOf_eq (h : GenNrzlPair u v) (n : Nat) : traceOf n ⟨c, u⟩ = traceOf n ⟨c, v⟩ := by
  induction n with
  | zero => rfl
  | succ n ih => rw [traceOf_succ_last, traceOf_succ_last, ih, (h.iterate (n + 1)).samplesOf_eq]

/-- What the two blocks are: one block, with the two codes in `OP`. -/
theorem GenNrzlPair.eq_with_op (h : GenNrzlPair u v) :
    u = { u with op := encode .gen } ∧ v = { u with op := encode .nrzl } :=
  ⟨by rw [← h.op], h.nrzl⟩

end GenNrzlPair

/-- Settles O45: the start steps leave a pair that differs in `OP` alone, and every step keeps it so. -/
theorem genAndNrzlAgree : Obligations.GenAndNrzlAgree := by
  intro c s hp hin
  have hpair := GenNrzlPair.of_startStep hin
  refine ⟨_, _, exec_rest .gen hp, exec_rest .nrzl hp, fun n => ⟨hpair.traceOf_eq n, ?_⟩⟩
  obtain ⟨hgen, hnrzl⟩ := (hpair.iterate n).eq_with_op
  exact ⟨_, (stateAfter_eq_iterate n _).trans (congrArg (State.mk c) hgen),
    (stateAfter_eq_iterate n _).trans (congrArg (State.mk c) hnrzl)⟩

/-! ### Blocks of bits -/

/-- The indices of bit `n`'s block are those whose quotient by `SPB` is `n`, and they lie inside the run (R86). -/
theorem block_index {c : Config} {s : Block c} {n k : Nat} (hn : n < s.len.toNat) (hlo : n * s.spb.toNat ≤ k)
    (hhi : k < (n + 1) * s.spb.toNat) : k < runLength s ∧ k / s.spb.toNat = n :=
  ⟨hhi.trans_le (Nat.mul_le_mul_right _ hn), Nat.div_eq_of_lt_le hlo hhi⟩

/-- The last event of a block and the first of the next stand on the two sides of a multiple of `SPB`. -/
theorem div_at_boundary {spb k n : Nat} (hspb : 0 < spb) (hk : k + 1 = (n + 1) * spb) :
    k / spb = n ∧ (k + 1) / spb = n + 1 := by
  have hnext : (k + 1) / spb = n + 1 := by rw [hk, Nat.mul_div_cancel _ hspb]
  have hstep := Nat.succ_div_of_dvd (Dvd.intro_left (n + 1) hk.symm)
  exact ⟨by omega, hnext⟩

/-- A sequence that is constant on blocks of `spb` changes exactly at the boundaries of blocks that differ (R102). -/
theorem replicated_ne_succ_iff (seq : Nat → Bit) {spb : Nat} (hspb : 0 < spb) (k : Nat) :
    seq (k / spb) ≠ seq ((k + 1) / spb) ↔ ∃ n, k + 1 = (n + 1) * spb ∧ seq n ≠ seq (n + 1) := by
  constructor
  · intro hne
    have hdvd : spb ∣ k + 1 := by
      by_contra hinside
      exact hne (by rw [Nat.succ_div_of_not_dvd hinside])
    have hnext := Nat.succ_div_of_dvd hdvd
    rw [hnext] at hne
    exact ⟨k / spb, by rw [← hnext, Nat.div_mul_cancel hdvd], hne⟩
  · rintro ⟨n, hk, hne⟩
    obtain ⟨hlast, hfirst⟩ := div_at_boundary hspb hk
    rwa [hlast, hfirst]

/-- Settles O46: event `k` of the run carries bit `k // SPB`, so its level changes where a replicated bit does. -/
theorem nrzlBlockProperty : Obligations.NrzlBlockProperty := by
  intro c s h
  have ⟨_, _, hv⟩ := h
  obtain ⟨-, hspb, -, -⟩ := (validate_eq_zero_iff_input s).1 hv
  refine ⟨h.exec_accepted .nrzl, fun n k hn hlo hhi => ?_, fun k hk => ?_⟩
  · obtain ⟨hk, hblock⟩ := block_index hn hlo hhi
    rw [h.runTrace_getElem? .nrzl hk, wave, hblock]
  · rw [h.levelAt_runTrace .nrzl (Nat.lt_of_succ_lt hk), h.levelAt_runTrace .nrzl hk, Ne, Option.some_inj]
    exact replicated_ne_succ_iff (seqBitAt s) hspb k

end Sys2Proof.Machine
end

section
/-! PROOFS. The statements about the latch (spec/42_nrzi.md): its transition table, and the levels of an `NRZI` run as
running exclusive-or and as parity of the bits. -/

namespace Sys2Proof.Machine

/-! ### One step of the latch -/

/-- Settles O18: outside `RUN` an operation is its start step. -/
theorem startClearsLatch : Obligations.StartClearsLatch := by
  intro i c s hp
  exact ⟨startStep s (encode i), exec_rest i hp, startStep_level s _⟩

/-- In an `NRZI` run the sample step toggles the latch by the input bit at a bit boundary and keeps it inside a
block (R111). -/
theorem latchNext_of_nrzi {c : Config} {s : Block c} (hop : s.op = 0b10#2) :
    latchNext s = if s.j.toNat = 0 then s.level ^^^ seqBitAt s s.i.toNat else s.level := by
  have hj : s.j = 0#c.sw ↔ s.j.toNat = 0 := by rw [BitVec.toNat_eq, BitVec.toNat_zero]
  rw [latchNext_eq_by_code]
  simp only [hop, true_and, hj]

/-- In an `NRZI` run the event carries the latch just written (R112). -/
theorem samplesOf_sampleStep_nrzi {c : Config} {s : Block c} (hop : s.op = 0b10#2) :
    samplesOf (sampleStep s) = [(s.k.toNat, (sampleStep s).level)] := by
  rw [samplesOf_of_some _ _ (sampleStep_out s), sampleStep_level, lvl_decode_eq_by_code, if_pos hop]

/-- Settles O17: the latch's next value, row by row. In a state that breaks R30 the bit is the cell's bit 0 (log 7). -/
theorem nrziTransitionTable : Obligations.NrziTransitionTable := by
  intro c s hin hp hop
  have hlevel : (sampleStep (taken s [])).level =
      if s.j.toNat = 0 then s.level ^^^ seqBitAt s s.i.toNat else s.level :=
    (sampleStep_level _).trans (latchNext_of_nrzi (s := taken s []) hop)
  refine ⟨sampleStep (taken s []), by rw [step_eq, stepBlock_turn_run hin hp],
    samplesOf_sampleStep_nrzi (s := taken s []) hop, fun hj => by rw [hlevel, if_neg hj], fun hj => ?_⟩
  rw [hlevel, if_pos hj]
  refine ⟨?_, ?_, ?_, ?_⟩ <;> rintro ⟨hlev, hbit⟩ <;> rw [hlev, hbit] <;> rfl

/-! ### The levels of a run -/

/-- Exclusive-or with a bit changes a bit exactly when that bit is 1. -/
theorem xor_ne_self_iff (a b : Bit) : a ^^^ b ≠ a ↔ b = 1#1 := by
  revert a b
  decide

/-- Exclusive-or of two bits is their sum modulo 2. -/
theorem toNat_xor_bit (a b : Bit) : (a ^^^ b).toNat = (a.toNat + b.toNat) % 2 := by
  revert a b
  decide

/-- The latch after `n` bits is the parity of the 1 bits among them (R116). -/
theorem levAfter_eq_parity (seq : Nat → Bit) (n : Nat) : levAfter seq n = BitVec.ofNat 1 (onesBelow seq n % 2) := by
  have hparity : (levAfter seq n).toNat = onesBelow seq n % 2 := by
    induction n with
    | zero => rfl
    | succ n ih => rw [levAfter, toNat_xor_bit, ih, onesBelow, Nat.mod_add_mod]
  rw [← hparity, BitVec.ofNat_toNat, BitVec.setWidth_eq]

/-- Every event of bit `n`'s block carries the latch after the first `n + 1` bits (R113). -/
theorem Startable.levelAt_nrzi {c : Config} {s : Block c} (h : Startable s) {n j : Nat} (hn : n < s.len.toNat)
    (hj : j < s.spb.toNat) :
    levelAt (runTrace .nrzi s) (n * s.spb.toNat + j) = some (levAfter (seqBitAt s) (n + 1)) := by
  have hhi : n * s.spb.toNat + j < (n + 1) * s.spb.toNat := by
    rw [Nat.succ_mul]
    exact Nat.add_lt_add_left hj _
  obtain ⟨hk, hblock⟩ := block_index hn (Nat.le_add_right _ j) hhi
  rw [h.levelAt_runTrace .nrzi hk, wave, hblock]

/-- The input of an accepted run has `SPB ≥ 1` (R142). -/
theorem Startable.spb_pos {c : Config} {s : Block c} (h : Startable s) : 0 < s.spb.toNat := by
  obtain ⟨-, -, hv⟩ := h
  exact ((validate_eq_zero_iff_input s).1 hv).2.1

/-- Settles O47: from one block to the next the latch is exclusive-ored with the bit, and a block has one latch. -/
theorem nrziChangesExactlyAtOnes : Obligations.NrziChangesExactlyAtOnes := by
  intro c s h
  have hspb := h.spb_pos
  have hfirst : ∀ n, n < s.len.toNat →
      levelAt (runTrace .nrzi s) (n * s.spb.toNat) = some (levAfter (seqBitAt s) (n + 1)) :=
    fun n hn => h.levelAt_nrzi hn hspb
  refine ⟨h.exec_accepted .nrzi, fun n hpos hn => ?_, ?_, fun n j hn hj => ?_⟩
  · obtain ⟨m, rfl⟩ := Nat.exists_eq_add_one.2 hpos
    have hlast : (m + 1) * s.spb.toNat - 1 = m * s.spb.toNat + (s.spb.toNat - 1) := by
      rw [Nat.succ_mul, Nat.add_sub_assoc hspb]
    rw [hfirst _ hn, hlast, h.levelAt_nrzi (Nat.lt_of_succ_lt hn) (Nat.sub_one_lt_of_lt hspb), Ne, Option.some_inj,
      levAfter]
    exact xor_ne_self_iff _ _
  · have hlen : 0 < s.len.toNat := Nat.pos_of_mul_pos_right h.runLength_pos
    have hzero := hfirst 0 hlen
    rwa [Nat.zero_mul, levAfter, levAfter, BitVec.zero_xor] at hzero
  · rw [h.levelAt_nrzi hn hj, hfirst n hn]

/-- Settles O48: the levels and the final latch are those of the running exclusive-or, which is the parity. -/
theorem nrziIsParity : Obligations.NrziIsParity := by
  intro c s h
  refine ⟨h.exec_accepted .nrzi, fun n hn => ?_, ?_⟩
  · rw [← levAfter_eq_parity]
    exact h.levelAt_nrzi hn h.spb_pos
  · rw [runEnd_eq, (h.runDone .nrzi).level, if_pos rfl, levAfter_eq_parity]

end Sys2Proof.Machine
end

section
/-! PROOFS. The statements about the mid-bit splitter (spec/43_manchester.md): a `MAN` block is the bit in its first
half and the complement in its second, and the transitions and the number of 1 levels follow from that. -/

namespace Sys2Proof.Machine

/-! ### The midpoint and the complement -/

/-- `MID = SPB // 2` (R125). -/
@[simp] theorem toNat_midPhase {w : Nat} (spb : BitVec w) : (midPhase spb).toNat = spb.toNat / 2 := by
  rw [midPhase, BitVec.toNat_ushiftRight, Nat.shiftRight_one]

/-- The complement of a bit is its exclusive-or with 1 (R131). -/
theorem oneMinus_eq_xor (b : Bit) : oneMinus b = b ^^^ 1#1 := by
  revert b
  decide

/-- A bit differs from a complement exactly when it is the bit complemented. -/
theorem ne_complement_iff (a b : Bit) : a ≠ 1#1 - b ↔ a = b := by
  revert a b
  decide

/-- Settles O19: on either side of the midpoint the level is the bit or its complement, and `HALF` is 0 or 1. -/
theorem manchesterIsXorWithHalf : Obligations.ManchesterIsXorWithHalf := by
  intro w b j spb
  by_cases hmid : midPhase spb ≤ j
  · have hnat : spb.toNat / 2 ≤ j.toNat := by rwa [BitVec.le_def, toNat_midPhase] at hmid
    have hhalf : half j spb = 1#1 := if_pos hmid
    have hlevel : levelMan b j spb = oneMinus b := if_neg (BitVec.not_lt.2 hmid)
    rw [hlevel, hhalf]
    exact ⟨oneMinus_eq_xor b, iff_of_true rfl hnat, iff_of_false (by decide) (Nat.not_lt.2 hnat)⟩
  · have hlt : j < midPhase spb := BitVec.not_le.1 hmid
    have hnat : j.toNat < spb.toNat / 2 := by rwa [BitVec.lt_def, toNat_midPhase] at hlt
    have hhalf : half j spb = 0#1 := if_neg hmid
    have hlevel : levelMan b j spb = b := if_pos hlt
    rw [hlevel, hhalf]
    exact ⟨BitVec.xor_zero.symm, iff_of_false (by decide) (Nat.not_le.2 hnat), iff_of_true rfl hnat⟩

/-! ### The halves of a block -/

/-- Sample `j` of bit `n`'s block comes before the next block (R86). -/
theorem block_sample_lt {spb j : Nat} (n : Nat) (hj : j < spb) : n * spb + j < (n + 1) * spb := by
  rw [Nat.succ_mul]
  exact Nat.add_lt_add_left hj _

/-- Sample `j` of bit `n`'s block has that bit and that place in the block (R86). -/
theorem block_div_mod {spb j : Nat} (n : Nat) (hj : j < spb) :
    (n * spb + j) / spb = n ∧ (n * spb + j) % spb = j := by
  rw [Nat.mul_add_mod', Nat.mod_eq_of_lt hj]
  exact ⟨Nat.div_eq_of_lt_le (Nat.le_add_right _ j) (block_sample_lt n hj), rfl⟩

/-- Below the midpoint a `MAN` block carries its bit (R127). -/
theorem wave_man_firstHalf (seq : Nat → Bit) {spb j : Nat} (n : Nat) (hj : j < spb / 2) :
    wave .man spb seq (n * spb + j) = seq n := by
  obtain ⟨hdiv, hmod⟩ := block_div_mod n (show j < spb by omega)
  rw [wave, hdiv, hmod, if_pos hj]

/-- From the midpoint on a `MAN` block carries the complement of its bit (R127). -/
theorem wave_man_secondHalf (seq : Nat → Bit) {spb j : Nat} (n : Nat) (hmid : spb / 2 ≤ j) (hj : j < spb) :
    wave .man spb seq (n * spb + j) = 1#1 - seq n := by
  obtain ⟨hdiv, hmod⟩ := block_div_mod n hj
  rw [wave, hdiv, hmod, if_neg (Nat.not_lt.2 hmid)]

/-- With one sample a bit the first half is empty, and sample `k` is the complement of bit `k` (R129). -/
theorem wave_man_unit (seq : Nat → Bit) (k : Nat) : wave .man 1 seq k = 1#1 - seq k := by
  simpa using wave_man_secondHalf seq k (Nat.zero_le 0) Nat.one_pos

section Startable
variable {c : Config} {s : Block c} {n j : Nat}

/-- Sample `j` of the block of a bit below `LEN` is in the run (R86). -/
theorem block_index_lt (hn : n < s.len.toNat) (hj : j < s.spb.toNat) : n * s.spb.toNat + j < runLength s :=
  (block_index hn (Nat.le_add_right _ j) (block_sample_lt n hj)).1

/-- The event of a sample below the midpoint (R127). -/
theorem Startable.man_firstHalf (h : Startable s) (hn : n < s.len.toNat) (hj : j < s.spb.toNat / 2) :
    (runTrace .man s)[n * s.spb.toNat + j]? = some (n * s.spb.toNat + j, seqBitAt s n) := by
  rw [h.runTrace_getElem? .man (block_index_lt hn (by omega)), wave_man_firstHalf _ n hj]

/-- The event of a sample from the midpoint on (R127). -/
theorem Startable.man_secondHalf (h : Startable s) (hn : n < s.len.toNat) (hmid : s.spb.toNat / 2 ≤ j)
    (hj : j < s.spb.toNat) :
    (runTrace .man s)[n * s.spb.toNat + j]? = some (n * s.spb.toNat + j, 1#1 - seqBitAt s n) := by
  rw [h.runTrace_getElem? .man (block_index_lt hn hj), wave_man_secondHalf _ n hmid hj]

theorem Startable.levelAt_man_firstHalf (h : Startable s) (hn : n < s.len.toNat) (hj : j < s.spb.toNat / 2) :
    levelAt (runTrace .man s) (n * s.spb.toNat + j) = some (seqBitAt s n) :=
  congrArg (Option.map Prod.snd) (h.man_firstHalf hn hj)

theorem Startable.levelAt_man_secondHalf (h : Startable s) (hn : n < s.len.toNat) (hmid : s.spb.toNat / 2 ≤ j)
    (hj : j < s.spb.toNat) : levelAt (runTrace .man s) (n * s.spb.toNat + j) = some (1#1 - seqBitAt s n) :=
  congrArg (Option.map Prod.snd) (h.man_secondHalf hn hmid hj)

/-- The last event of a block and the first of the next, where a block has two halves (R132). -/
theorem Startable.levelAt_man_boundary (h : Startable s) (hspb : 2 ≤ s.spb.toNat) (hn : n + 1 < s.len.toNat) :
    levelAt (runTrace .man s) ((n + 1) * s.spb.toNat - 1) = some (1#1 - seqBitAt s n) ∧
      levelAt (runTrace .man s) ((n + 1) * s.spb.toNat) = some (seqBitAt s (n + 1)) := by
  constructor
  · have hlast : (n + 1) * s.spb.toNat - 1 = n * s.spb.toNat + (s.spb.toNat - 1) := by
      rw [Nat.succ_mul, Nat.add_sub_assoc (by omega)]
    rw [hlast]
    exact h.levelAt_man_secondHalf (by omega) (by omega) (by omega)
  · exact h.levelAt_man_firstHalf (j := 0) hn (by omega)

/-- Inside a block the level changes at the midpoint and nowhere else (R132). -/
theorem Startable.man_changes_at_midpoint (h : Startable s) (hn : n < s.len.toNat) (hj : j + 1 < s.spb.toNat) :
    levelAt (runTrace .man s) (n * s.spb.toNat + j) ≠ levelAt (runTrace .man s) (n * s.spb.toNat + j + 1) ↔
      j + 1 = s.spb.toNat / 2 := by
  rw [Nat.add_assoc]
  rcases Nat.lt_trichotomy (j + 1) (s.spb.toNat / 2) with hlt | hmid | hgt
  · rw [h.levelAt_man_firstHalf hn (Nat.lt_of_succ_lt hlt), h.levelAt_man_firstHalf hn hlt]
    exact iff_of_false (not_not_intro rfl) hlt.ne
  · rw [h.levelAt_man_firstHalf hn (by omega), h.levelAt_man_secondHalf hn hmid.ge hj, Ne, Option.some_inj]
    exact iff_of_true ((ne_complement_iff _ _).2 rfl) hmid
  · rw [h.levelAt_man_secondHalf hn (Nat.le_of_lt_succ hgt) (by omega), h.levelAt_man_secondHalf hn hgt.le hj]
    exact iff_of_false (not_not_intro rfl) hgt.ne'

end Startable

/-- Settles O49: `k` is sample `k - start` of block `n`, in the half that the floor midpoint puts it in. -/
theorem manchesterHalves : Obligations.ManchesterHalves := by
  intro c s h
  refine ⟨h.exec_accepted .man, fun n hn => ?_⟩
  intro start stop mid
  have hstop : stop = start + s.spb.toNat := Nat.succ_mul _ _
  have hmid : mid = start + s.spb.toNat / 2 := by omega
  refine ⟨hmid, fun k hlo hhi => ?_, fun k hlo hhi => ?_⟩
  · obtain ⟨j, rfl⟩ := Nat.exists_eq_add_of_le hlo
    exact h.man_firstHalf hn (by omega)
  · obtain ⟨j, rfl⟩ := Nat.exists_eq_add_of_le (show start ≤ k by omega)
    exact h.man_secondHalf hn (by omega) (by omega)

/-- Settles O50: the waveform of one-sample blocks, and the end of a finished run. -/
theorem manchesterUnitOversampling : Obligations.ManchesterUnitOversampling := by
  intro c s h hone
  obtain ⟨hphase, -, -, -, herr⟩ := (h.runDone .man).finished
  refine ⟨h.exec_accepted .man, by rw [toNat_midPhase, hone], ?_, ?_, ?_⟩
  · rw [h.runTrace_eq, waveform, hone, Nat.mul_one]
    simp only [wave_man_unit]
  · rw [runEnd_eq]
    exact hphase
  · rw [runEnd_eq]
    exact herr

/-- Settles O51: the change inside a block is at the midpoint, and between blocks a complement meets a bit; with one
sample a bit, a complement meets a complement. -/
theorem manchesterTransitions : Obligations.ManchesterTransitions := by
  intro c s h
  refine ⟨h.exec_accepted .man,
    fun hspb => ⟨fun n j hn hj => h.man_changes_at_midpoint hn hj, fun n hn => ⟨?_, ?_⟩, fun n hn => ?_⟩,
    fun hone n hn => ?_⟩
  · rw [Nat.add_sub_assoc (by omega)]
    exact h.levelAt_man_firstHalf hn (by omega)
  · exact h.levelAt_man_secondHalf hn le_rfl (by omega)
  · obtain ⟨hlast, hfirst⟩ := h.levelAt_man_boundary hspb hn
    refine ⟨hlast, hfirst, ?_⟩
    rw [hlast, hfirst, Ne, Option.some_inj, eq_comm (a := 1#1 - _), eq_comm (a := seqBitAt s n)]
    exact ne_complement_iff _ _
  · have hlength : runLength s = s.len.toNat := by rw [runLength, hone, Nat.mul_one]
    rw [h.levelAt_runTrace .man (by omega), h.levelAt_runTrace .man (by omega), hone, wave_man_unit, wave_man_unit,
      Ne, Option.some_inj, sub_right_inj]

/-! ### The number of events at level 1 -/

/-- At most all of the first `n` bits are 1. -/
theorem onesBelow_le (seq : Nat → Bit) (n : Nat) : onesBelow seq n ≤ n := by
  induction n with
  | zero => exact le_rfl
  | succ n ih =>
    have hbit := (seq n).isLt
    rw [onesBelow]
    omega

/-- The complement of a bit as a number. -/
theorem toNat_complement (b : Bit) : (1#1 - b).toNat = 1 - b.toNat := by
  revert b
  decide

/-- Samples that all carry one bit are at level 1 all or none. -/
theorem count_of_constant {f : Nat → Bit} {b : Bit} {m : Nat} (h : ∀ j, j < m → f j = b) :
    Nat.count (fun j => f j = 1#1) m = b.toNat * m := by
  rcases BitVec.eq_zero_or_eq_one b with rfl | rfl
  · rw [Nat.count_of_forall_not fun j hj => by rw [h j hj]; decide, BitVec.toNat_zero, Nat.zero_mul]
  · rw [Nat.count_of_forall h, BitVec.toNat_one Nat.one_pos, Nat.one_mul]

/-- Block `n` of a `MAN` waveform has its first half at level 1 if the bit is 1, and else its second (R134). -/
theorem count_man_block (seq : Nat → Bit) (spb n : Nat) :
    Nat.count (fun j => wave .man spb seq (n * spb + j) = 1#1) spb =
      (seq n).toNat * (spb / 2) + (1#1 - seq n).toNat * (spb - spb / 2) := by
  have hfirst := count_of_constant fun j (hj : j < spb / 2) => wave_man_firstHalf seq n hj
  have hsecond := count_of_constant fun j (hj : j < spb - spb / 2) =>
    wave_man_secondHalf seq n (Nat.le_add_right (spb / 2) j) (by omega)
  rw [← hfirst, ← hsecond, ← Nat.count_add (fun j => wave .man spb seq (n * spb + j) = 1#1),
    Nat.add_sub_cancel' (Nat.div_le_self spb 2)]

/-- The number of events at level 1 in the waveform of the first `n` bits (R134). -/
theorem count_man (seq : Nat → Bit) (spb n : Nat) :
    Nat.count (fun k => wave .man spb seq k = 1#1) (n * spb) =
      onesBelow seq n * (spb / 2) + (n - onesBelow seq n) * (spb - spb / 2) := by
  induction n with
  | zero => rw [Nat.zero_mul, Nat.count_zero, onesBelow, Nat.zero_mul, Nat.zero_mul]
  | succ n ih =>
    have hzeros : n + 1 - onesBelow seq (n + 1) = (n - onesBelow seq n) + (1#1 - seq n).toNat := by
      have hones := onesBelow_le seq n
      have hbit := (seq n).isLt
      rw [toNat_complement, onesBelow]
      omega
    rw [Nat.succ_mul, Nat.count_add, ih, count_man_block, hzeros, onesBelow]
    ring

/-- Where the halves of a block are equally long, the bits do not matter (R134). -/
theorem ones_halves_add_zeros_halves {ones n spb : Nat} (hones : ones ≤ n) (heven : spb % 2 = 0) :
    ones * (spb / 2) + (n - ones) * (spb - spb / 2) = n * spb / 2 := by
  have hhalf : spb - spb / 2 = spb / 2 := by omega
  rw [hhalf, ← Nat.add_mul, Nat.add_sub_cancel' hones, Nat.mul_div_assoc n (Nat.dvd_of_mod_eq_zero heven)]

/-- Settles O52: the 1 levels of the trace are those of the waveform, counted block by block. -/
theorem manchesterCounts : Obligations.ManchesterCounts := by
  intro c s h
  have hcount : (runTrace .man s).countP (fun e => decide (e.2 = 1#1)) =
      onesBelow (seqBitAt s) s.len.toNat * (s.spb.toNat / 2) +
        (s.len.toNat - onesBelow (seqBitAt s) s.len.toNat) * (s.spb.toNat - s.spb.toNat / 2) := by
    rw [h.runTrace_eq, waveform, List.countP_map]
    exact count_man (seqBitAt s) s.spb.toNat s.len.toNat
  exact ⟨h.exec_accepted .man, hcount,
    fun heven => hcount.trans (ones_halves_add_zeros_halves (onesBelow_le _ _) heven)⟩

end Sys2Proof.Machine
end

section
/-! PROOFS. The statements about InvalidInput (spec/60_exceptions.md): the cause mask bit by bit, the entry of a
rejected start, and that nothing else stops a step. -/

namespace Sys2Proof.Machine

/-! ### The cause mask -/

section CauseMask
variable {c : Config} (s : Block c)

/-- Each bit of the mask is its own condition, in the order of R141. -/
theorem validate_bits :
    (validate s).getLsbD 0 = causeEmpty s ∧ (validate s).getLsbD 1 = causeSymbol s ∧
      (validate s).getLsbD 2 = causeBitdur s ∧ (validate s).getLsbD 3 = causeSpb s := by
  unfold validate
  generalize causeSpb s = spb, causeBitdur s = bitdur, causeSymbol s = symbol, causeEmpty s = empty
  decide +revert

theorem causeEmpty_iff : causeEmpty s = true ↔ s.len.toNat = 0 := by
  rw [causeEmpty, decide_eq_zero_eq, decide_eq_true_iff]

theorem causeSymbol_iff : causeSymbol s = true ↔ ∃ n, n < s.len.toNat ∧ 2 ≤ (cellAt s n).toNat :=
  anyNonBinary_iff s s.len.toNat

theorem causeBitdur_iff : causeBitdur s = true ↔ s.bitdur.toNat = 0 := by
  rw [causeBitdur, decide_eq_zero_eq, decide_eq_true_iff]

theorem causeSpb_iff : causeSpb s = true ↔ s.spb.toNat = 0 := by
  rw [causeSpb, decide_eq_zero_eq, decide_eq_true_iff]

variable {s}

/-- A cell of one bit is binary (R142). -/
theorem cellAt_lt_two_of_symw (h : c.symw = 1) (n : Nat) : (cellAt s n).toNat < 2 :=
  calc (cellAt s n).toNat < 2 ^ c.symw := (cellAt s n).isLt
    _ = 2 := by rw [h, Nat.pow_one]

/-- No symbol cause where cells have one bit, and none where no cell is examined (R142). -/
theorem causeSymbol_eq_false (h : c.symw = 1 ∨ s.len.toNat = 0) : causeSymbol s = false := by
  rw [← Bool.not_eq_true, causeSymbol_iff]
  rintro ⟨n, hn, hcell⟩
  rcases h with hsymw | hlen
  · exact absurd (cellAt_lt_two_of_symw hsymw n) (Nat.not_lt.2 hcell)
  · exact absurd (hlen ▸ hn) (Nat.not_lt_zero n)

end CauseMask

/-- Settles O10: the mask holds the four conditions side by side, and each reads its part of the input alone. -/
theorem validateMask : Obligations.ValidateMask := by
  refine ⟨fun c s => ?_, fun c s t hlen hbitdur hspb hcell => ?_⟩
  · obtain ⟨hempty, hsymbol, hbitdur, hspb⟩ := validate_bits s
    rw [hempty, hsymbol, hbitdur, hspb]
    refine ⟨causeEmpty_iff s, causeSymbol_iff s, causeBitdur_iff s, causeSpb_iff s, ?_, causeSymbol_eq_false⟩
    rw [validate_eq_zero_iff_input]
    tauto
  · exact validate_congr (by rw [hspb]) (by rw [hbitdur]) (by rw [hlen]) fun n hn => by rw [hcell n hn]

/-! ### The entry of InvalidInput -/

/-- With an invalid input the start step ends in `ERR`, at the origin, with the cause mask (R144). -/
theorem startStep_rejected {c : Config} {s : Block c} (w : CmdWord) (hv : validate s ≠ 0#4) :
    startStep s w = { s with
      op := w
      i := 0#c.aw
      j := 0#c.sw
      k := 0#c.kw
      level := 0#1
      errcause := validate s
      phase := .err } := by
  rw [startStep_eq, if_neg hv]

/-- Settles O7: the start step with a cause, and the turn in `ERR`, whose next state is the model's choice (log 10). -/
theorem rejectedStartEntersErr : Obligations.RejectedStartEntersErr := by
  refine ⟨fun i c s hp hv => ?_, fun c s w rest hin hp hv => ?_, fun c s hp hin => ?_⟩
  · rw [exec_rest i hp, startStep_rejected (encode i) hv]
  · obtain ⟨t, hstep, hsamples, -, rfl⟩ := startStepEffect c s w rest hin hp
    exact ⟨_, hstep, if_pos hv, hsamples⟩
  · rw [step_eq, stepBlock_turn_rest hin (by rw [hp]; decide)]

/-! ### No step stops -/

/-- Settles O32: every step answers what `stepBlock` leaves. That an idle turn answers too is the model's choice
(log 10). -/
theorem everyStepHasNextState : Obligations.EveryStepHasNextState :=
  fun c s => ⟨stepBlock s, step_eq ⟨c, s⟩⟩

end Sys2Proof.Machine
end

section
/-! PROOFS. The statements about reset and hazards (spec/70_reset_and_hazards.md): the block that waits after reset, the
host's moves that a run ignores, the steps a run takes, and a sequence split into two runs. -/

namespace Sys2Proof.Machine

/-! ### A sequence split into two runs -/

/-- The latch goes on from the one that the first `n` bits left (R113, R118). -/
theorem levAfter_add (seq : Nat → Bit) (n m : Nat) :
    levAfter seq (n + m) = levAfter seq n ^^^ levAfter (fun k => seq (n + k)) m := by
  induction m with
  | zero => exact BitVec.xor_zero.symm
  | succ m ih => rw [← Nat.add_assoc, levAfter, ih, levAfter, BitVec.xor_assoc]

/-- From block `n` on the waveform is that of the remaining bits; for `NRZI`, exclusive-or the latch that the first `n`
bits left (R178, R183). -/
theorem wave_add (i : Instr) (seq : Nat → Bit) {spb : Nat} (hspb : 0 < spb) (n k : Nat) :
    wave i spb seq (n * spb + k) =
      if i = .nrzi then levAfter seq n ^^^ wave i spb (fun m => seq (n + m)) k
      else wave i spb (fun m => seq (n + m)) k := by
  have hdiv : (n * spb + k) / spb = n + k / spb := by
    rw [Nat.add_comm, Nat.add_mul_div_right _ _ hspb, Nat.add_comm]
  have hmod : (n * spb + k) % spb = k % spb := Nat.mul_add_mod' n spb k
  cases i with
  | gen => simp [wave, hdiv]
  | nrzl => simp [wave, hdiv]
  | nrzi => simp only [wave, hdiv, if_true, Nat.add_assoc, levAfter_add]
  | man => simp [wave, hdiv, hmod]

/-- The waveform of `n` bits depends on these bits alone (R87, R89). -/
theorem waveform_congr (i : Instr) {f g : Nat → Bit} {spb n : Nat} (h : ∀ m, m < n → f m = g m) :
    waveform i spb n f = waveform i spb n g :=
  List.map_congr_left fun k hk => by rw [wave_congr i h (List.mem_range.1 hk)]

/-- The waveform of `n + m` bits is that of the first `n`, and after it that of the last `m` with its indices offset by
the first one's count and, for `NRZI`, its levels exclusive-or the latch between them (R178, R183). -/
theorem waveform_add (i : Instr) (seq : Nat → Bit) {spb : Nat} (hspb : 0 < spb) (n m : Nat) :
    waveform i spb (n + m) seq = waveform i spb n seq ++
      (waveform i spb m fun k => seq (n + k)).map fun e =>
        (n * spb + e.1, if i = .nrzi then levAfter seq n ^^^ e.2 else e.2) := by
  simp only [waveform, Nat.add_mul, List.range_add, List.map_append, List.map_map, Function.comp_def,
    wave_add i seq hspb]

/-- Settles O55: the trace of the whole sequence is its waveform, cut at the first run's last block; the two parts read
the cells of the two runs, and the latch at the cut is the one that the first run left. -/
theorem splitSequence : Obligations.SplitSequence := by
  intro i c s s₁ s₂ h h₁ h₂ hspb₁ hspb₂ hlen hcell₁ hcell₂
  have hfirst : ∀ n, n < s₁.len.toNat → seqBitAt s n = seqBitAt s₁ n := fun n hn => by
    rw [seqBitAt, seqBitAt, hcell₁ n hn]
  have hsecond : ∀ n, n < s₂.len.toNat → seqBitAt s (s₁.len.toNat + n) = seqBitAt s₂ n := fun n hn => by
    rw [seqBitAt, seqBitAt, hcell₂ n hn]
  have hlatch : (runEnd .nrzi s₁).block.level = levAfter (seqBitAt s) s₁.len.toNat := by
    rw [runEnd_eq, (h₁.runDone .nrzi).level, if_pos rfl, levAfter_congr hfirst]
  rw [h.runTrace_eq, h₁.runTrace_eq, h₂.runTrace_eq, hlatch, runLength, hspb₁, hspb₂, hlen,
    waveform_add i _ h.spb_pos, waveform_congr i hfirst, waveform_congr i hsecond]

/-! ### The steps of a run -/

/-- Settles O43: before its end the run stands at the sample of its step count, and its end is for ever. That a step
with no host move is the sequencer's is the model's form of the weak fairness (log 9). -/
theorem runTakesItsSteps : Obligations.RunTakesItsSteps := by
  refine ⟨fun i c s h => ⟨startedRun i s, h.exec_accepted i, fun n hn => ?_, fun n hn => ?_⟩, fun i c s hp hv => ?_⟩
  · have hat := h.runAt_iterate i hn
    rw [stateAfter_eq_iterate]
    exact ⟨hat.phase, hat.k_eq⟩
  · obtain ⟨m, rfl⟩ := Nat.exists_eq_add_of_le hn
    obtain ⟨htrace, hphase, -⟩ := h.after_end i m
    rw [stateAfter_eq_iterate]
    exact ⟨hphase, htrace⟩
  · exact ⟨startStep s (encode i), exec_rest i hp, by rw [startStep_phase, if_neg hv]⟩

/-! ### The host's writes and commands during a run -/

/-- Outside `RUN` a host write to `CMD` is the start step of its word (R65). -/
theorem step_start_rest {c : Config} {s : Block c} {w : CmdWord} {rest : List (HostMove c)}
    (hin : s.inbox = .regWrite .cmd w :: rest) (hp : s.phase ≠ .run) :
    step ⟨c, s⟩ = .next ⟨c, startStep (taken s rest) w⟩ := by
  rw [step_regWrite_cmd hin, exec_rest (s := taken s rest) (decode w) hp, encode_decode]

/-- The steps after the first one start from what it left. -/
theorem stateAfter_succ_of_step {c : Config} {s t : Block c} (n : Nat) (h : step ⟨c, s⟩ = .next ⟨c, t⟩) :
    stateAfter (n + 1) ⟨c, s⟩ = stateAfter n ⟨c, t⟩ := by
  rw [stateAfter, h]

/-- Settles O8: in `RUN` a command is lost like every register write, and the first of two commands leaves `RUN` for the
second. -/
theorem commandDuringRunIsLost : Obligations.CommandDuringRunIsLost := by
  refine ⟨fun i c s hp => ?_, fun c s w rest hin hp => step_regWrite_run hin hp, fun c s w₁ w₂ rest hin hp hv => ?_⟩
  · rw [exec_eq, issueCommand, if_pos hp]
  · have hrun : (startStep (taken s (.regWrite .cmd w₂ :: rest)) w₁).phase = .run := by
      rw [startStep_phase, validate_taken, if_pos hv]
    have hlost := step_regWrite_run (startStep_inbox (taken s (.regWrite .cmd w₂ :: rest)) w₁) hrun
    exact ⟨_, (stateAfter_succ_of_step 1 (step_start_rest hin hp)).trans (stateAfter_succ_of_step 0 hlost),
      startStep_op _ w₁, hrun, startStep_k _ w₁, rfl⟩

/-- Settles O20: in `RUN` a register write and a cell write are lost. -/
theorem hostWritesDuringRunAreLost : Obligations.HostWritesDuringRunAreLost :=
  fun _ _ _ hp => ⟨fun _ _ hin => step_regWrite_run hin hp, fun _ _ hin => step_seqWrite_run hin hp⟩

/-! ### Reset -/

/-- Settles O12: the move is the reset of the block that the step's bookkeeping left, which keeps the host's later moves
and the draw counter (logs 2 and 4). -/
theorem resetInputInAnyPhase : Obligations.ResetInputInAnyPhase :=
  fun _ _ _ hin => ⟨_, step_of_inbox hin, rfl, rfl, rfl⟩

/-- Reset leaves no run (R36). -/
theorem powerOn_phase_ne_run (c : Config) (d : Nat) (ms : List (HostMove c)) : (Block.powerOn c d ms).phase ≠ .run := by
  rw [powerOn_phase]
  decide

/-- The reset state fails validation for its empty sequence alone (R171). -/
theorem validate_powerOn (c : Config) (d : Nat) (ms : List (HostMove c)) :
    validate (Block.powerOn c d ms) = 0b0001#4 := by
  have hlen : (Block.powerOn c d ms).len.toNat = 0 := by rw [powerOn_len, BitVec.toNat_ofNat, Nat.zero_mod]
  have hempty : causeEmpty (Block.powerOn c d ms) = true := (causeEmpty_iff _).2 hlen
  have hsymbol : causeSymbol (Block.powerOn c d ms) = false := causeSymbol_eq_false (.inr hlen)
  have hbitdur : causeBitdur (Block.powerOn c d ms) = false := by
    rw [← Bool.not_eq_true, causeBitdur_iff, toNat_powerOn_bitdur]
    decide
  have hspb : causeSpb (Block.powerOn c d ms) = false := by
    rw [← Bool.not_eq_true, causeSpb_iff, toNat_powerOn_spb]
    decide
  rw [validate, hempty, hsymbol, hbitdur, hspb]
  rfl

/-- Settles O13: in `IDLE` every step but a start keeps the phase and shows no event, and a start finds `LEN = 0`. -/
theorem afterResetBlockWaits : Obligations.AfterResetBlockWaits := by
  intro c d
  refine ⟨rfl, rfl, fun n => ?_, fun s t hidle hcmd hstep => ?_, fun w => ?_⟩
  · obtain ⟨same, htrace⟩ := iterate_turn_rest rfl (powerOn_phase_ne_run c d []) n
    rw [stateAfter_eq_iterate]
    exact ⟨same.phase, htrace⟩
  · cases step_effect hstep with
    | start w rest hin hp => exact absurd hin (hcmd w rest)
    | reset rest hin => exact ⟨rfl, rfl⟩
    | sample rest hp => exact absurd (hidle.symm.trans hp) (by decide)
    | kept same hin hout => exact ⟨same.phase.trans hidle, samplesOf_of_none t hout⟩
  · have hvalidate := validate_powerOn c d [startMove c w]
    refine ⟨_, step_start_rest rfl (powerOn_phase_ne_run c d [startMove c w]), ?_, ?_, startStep_op _ w⟩
    · rw [startStep_phase, validate_taken, hvalidate]
      rfl
    · rw [startStep_errcause, validate_taken, hvalidate]

end Sys2Proof.Machine
end
